-- ==== Sys2Proof/Word.lean ====
section
/-!
DEFINITION. The widths of the machine: 32-bit registers and command words (R11, R62), 8-bit buffer
bytes (R48), and the bit streams of the framer (R13).
-/

namespace Sys2Proof

/-- A register or command word (R11, R62). -/
abbrev Word := BitVec 32

/-- A byte of a buffer (R48); bit 0 is the least significant (R12). -/
abbrev Byte := BitVec 8

/-- R13: a finite sequence of bits, the first bit of the stream first. -/
abbrev BitString := List Bool

end Sys2Proof
end

