-- ==== Sys2Proof/Config.lean ====
section
/-!
DEFINITION. What is fixed for one machine: the embedding schemes (R17) and the parameters that the
implementation and the platform choose (R7, R8, R9, R41, R42).
-/

namespace Sys2Proof

/-- R17, in the enumeration order of R65: Basic (B), EnhancedFlip (EF), EnhancedNoFlip (EN). -/
inductive Scheme where
  | basic
  | enhancedFlip
  | enhancedNoFlip
deriving DecidableEq, Repr

/-- The OPEN parameters of the spec. `State` holds one such record that no step writes, so a statement
about every state is a statement about every choice of them (log 1). -/
structure Params where
  /-- N_MAX, the size of CBUF in bytes (R7). -/
  nMax : Nat
  /-- M_MAX, the size of MBUF in bytes (R8). -/
  mMax : Nat
  /-- O_MAX, the size of OBUF in bytes (R9). -/
  oMax : Nat
  /-- REG_BASE, the bus address of the register window (R41). -/
  regBase : Nat
  /-- CBUF_BASE (R42). -/
  cbufBase : Nat
  /-- MBUF_BASE (R42). -/
  mbufBase : Nat
  /-- OBUF_BASE (R42). -/
  obufBase : Nat
deriving DecidableEq, Repr

/-- DESIGN CHOICE (log 1), unsafe: the parameters of the machine that `State.reset` builds. The buffers
are the largest that R7 and R8 allow, so that no length is out of range that some machine accepts. -/
def Config.params : Params where
  nMax := 2147483647
  mMax := 536870911
  oMax := 536870911
  regBase := 0
  cbufBase := 0x80000000
  mbufBase := 0x100000000
  obufBase := 0x120000000

end Sys2Proof
end

