-- ==== Sys2Proof/Syntax.lean ====
section
/-!
DEFINITION. The ten commands of spec/opcode_table.json, one constructor a row (R67). A command word
holds no operand (R66), so no constructor takes one.
-/

namespace Sys2Proof

/-- The commands of R67. -/
inductive Instr where
  /-- NOP (R119). -/
  | nop
  /-- ENC.B (R93). -/
  | encB
  /-- ENC.EF (R107). -/
  | encEf
  /-- ENC.EN (R100). -/
  | encEn
  /-- DEC.B (R94). -/
  | decB
  /-- DEC.EF (R108). -/
  | decEf
  /-- DEC.EN (R101). -/
  | decEn
  /-- CAP.B (R85). -/
  | capB
  /-- CAP.EF (R86). -/
  | capEf
  /-- CAP.EN (R87). -/
  | capEn
deriving DecidableEq, Repr

end Sys2Proof
end

