-- ==== Sys2Proof/WellFormed.lean ====
section
/-!
DEFINITION. The checks: the fields of a command word (R63 to R65, R69), a command (R66), and the
parameters of a machine (R7, R8, R9, R41, R42).
-/

namespace Sys2Proof

/-- R63: the three fields of format CMD32. -/
structure Cmd32 where
  /-- OP, bits 3:0. -/
  op : BitVec 4
  /-- SCH, bits 5:4. -/
  sch : BitVec 2
  /-- RSV, bits 31:6. -/
  rsv : BitVec 26
deriving DecidableEq, Repr

/-- R63, R64, R65, R69: the fields are those of a legal word. RSV is 0, OP is 0 to 3, SCH is not 3, and
a NOP has SCH = 0. -/
abbrev Cmd32.wf (c : Cmd32) : Prop :=
  c.rsv = 0 ∧ c.op.toNat ≤ 3 ∧ c.sch ≠ 3 ∧ (c.op = 0 → c.sch = 0)

/-- R66: a command has no operand, so every command is well formed. -/
def Instr.wf (i : Instr) : Bool :=
  match i with
  | .nop => true
  | .encB => true
  | .encEf => true
  | .encEn => true
  | .decB => true
  | .decEf => true
  | .decEn => true
  | .capB => true
  | .capEf => true
  | .capEn => true

/-- R42: two windows, given by base and size, share no address. -/
abbrev windowsApart (b₁ n₁ b₂ n₂ : Nat) : Prop :=
  b₁ + n₁ ≤ b₂ ∨ b₂ + n₂ ≤ b₁

/-- R7, R8, R9: the bounds of the three buffer sizes. -/
abbrev Params.sizesOk (p : Params) : Prop :=
  32 ≤ p.nMax ∧ p.nMax ≤ 2 ^ 31 - 1 ∧ 1 ≤ p.mMax ∧ p.mMax ≤ 2 ^ 29 - 1 ∧ (p.nMax - 16) / 4 ≤ p.oMax

/-- R41, R42: the register window is aligned to 64 and the four windows do not overlap. -/
abbrev Params.placementOk (p : Params) : Prop :=
  p.regBase % 64 = 0 ∧
  windowsApart p.regBase 64 p.cbufBase p.nMax ∧
  windowsApart p.regBase 64 p.mbufBase p.mMax ∧
  windowsApart p.regBase 64 p.obufBase p.oMax ∧
  windowsApart p.cbufBase p.nMax p.mbufBase p.mMax ∧
  windowsApart p.cbufBase p.nMax p.obufBase p.oMax ∧
  windowsApart p.mbufBase p.mMax p.obufBase p.oMax

/-- The parameters meet every constraint of the spec. -/
abbrev Params.wf (p : Params) : Prop := p.sizesOk ∧ p.placementOk

end Sys2Proof
end

