-- ==== Sys2Proof/Decode.lean ====
section
/-!
DEFINITION. Decoding a command word, total on every 32-bit word and rejecting by name (R68, R69); the
encoder, written from the opcode map (R67); and the mnemonics (R70).

A command is one whole 32-bit word written to CMD and never bytes fetched from a memory (R60, R62), so the
decoder takes a word.
-/

namespace Sys2Proof

/-- Why a word decodes to ILLEGAL: the four kinds of reserved word that R69 lists. -/
inductive IllegalWord where
  /-- A nonzero bit in 31:6. -/
  | reservedBits
  /-- OP = 0 with SCH ≠ 0 (R65). -/
  | nopWithScheme
  /-- OP in 4..15. -/
  | reservedOp
  /-- SCH = 3. -/
  | reservedScheme
deriving DecidableEq, Repr

/-- R63: the fields of a word. -/
def fieldsOf (w : Word) : Cmd32 where
  op := w.extractLsb' 0 4
  sch := w.extractLsb' 4 2
  rsv := w.extractLsb' 6 26

/-- R65: the scheme that SCH selects; 3 is reserved. -/
def schemeOf (sch : BitVec 2) : Option Scheme :=
  match sch.toNat with
  | 0 => some .basic
  | 1 => some .enhancedFlip
  | 2 => some .enhancedNoFlip
  | _ => none

/-- The ENC command of a scheme (R67). -/
def encOf (sch : Scheme) : Instr :=
  match sch with
  | .basic => .encB
  | .enhancedFlip => .encEf
  | .enhancedNoFlip => .encEn

/-- The DEC command of a scheme (R67). -/
def decOf (sch : Scheme) : Instr :=
  match sch with
  | .basic => .decB
  | .enhancedFlip => .decEf
  | .enhancedNoFlip => .decEn

/-- The CAP command of a scheme (R67). -/
def capOf (sch : Scheme) : Instr :=
  match sch with
  | .basic => .capB
  | .enhancedFlip => .capEf
  | .enhancedNoFlip => .capEn

/-- R68, on the fields of a word, in its order of checks. -/
def decodeFields (c : Cmd32) : Except IllegalWord Instr :=
  if c.rsv ≠ 0 then .error .reservedBits
  else if c.op = 0 then
    if c.sch = 0 then .ok .nop else .error .nopWithScheme
  else
    match c.op.toNat with
    | 1 => match schemeOf c.sch with
      | some sch => .ok (encOf sch)
      | none => .error .reservedScheme
    | 2 => match schemeOf c.sch with
      | some sch => .ok (decOf sch)
      | none => .error .reservedScheme
    | 3 => match schemeOf c.sch with
      | some sch => .ok (capOf sch)
      | none => .error .reservedScheme
    | _ => .error .reservedOp

/-- R68: Decode, total on every 32-bit word. -/
def decode (w : Word) : Except IllegalWord Instr :=
  decodeFields (fieldsOf w)

/-- R64, R65, R67: the fields of a command. -/
def Instr.fields (i : Instr) : Cmd32 :=
  match i with
  | .nop => ⟨0, 0, 0⟩
  | .encB => ⟨1, 0, 0⟩
  | .encEf => ⟨1, 1, 0⟩
  | .encEn => ⟨1, 2, 0⟩
  | .decB => ⟨2, 0, 0⟩
  | .decEf => ⟨2, 1, 0⟩
  | .decEn => ⟨2, 2, 0⟩
  | .capB => ⟨3, 0, 0⟩
  | .capEf => ⟨3, 1, 0⟩
  | .capEn => ⟨3, 2, 0⟩

/-- R63: the word with these fields. -/
def Cmd32.word (c : Cmd32) : Word := c.rsv ++ c.sch ++ c.op

/-- R67: the word of a command. -/
def encode (i : Instr) : Word := i.fields.word

/-- R70: the mnemonic of a command. -/
def Instr.mnemonic (i : Instr) : String :=
  match i with
  | .nop => "NOP"
  | .encB => "ENC.B"
  | .encEf => "ENC.EF"
  | .encEn => "ENC.EN"
  | .decB => "DEC.B"
  | .decEf => "DEC.EF"
  | .decEn => "DEC.EN"
  | .capB => "CAP.B"
  | .capEf => "CAP.EF"
  | .capEn => "CAP.EN"

/-- Every command, in the order of R67. -/
def Instr.all : List Instr :=
  [.nop, .encB, .encEf, .encEn, .decB, .decEf, .decEn, .capB, .capEf, .capEn]

/-- The instruction that the decoder reads from an instruction whose bits are `w`, numbered as
spec/opcode_table.json numbers them. Every row has 32 bits; a shorter `nbits` leaves the bits above it 0, and
a longer one is no command word (R62; log 17). -/
def decodeTableWord (nbits w : Nat) : Option Instr :=
  if nbits ≤ 32 then
    match decode (BitVec.ofNat 32 (w % 2 ^ nbits)) with
    | .ok i => some i
    | .error _ => none
  else none

end Sys2Proof
end

