-- ==== Sys2Proof/Machine/State.lean ====
section
/-!
DEFINITION. The state of one engine and of the host that drives it, as plain data (R20, R5, R6), and the
state after reset (R140). The types of host operations, their replies and the turns of the agents stand
here because `State` holds lists of them.
-/

namespace Sys2Proof.Machine

/-- R139: the model faults, behaviour that the hardware leaves UNSPECIFIED. Each is safe: it stops the machine
where the chip would go on. -/
inductive Fault where
  /-- Raised by any host access other than a read of STATUS while BUSY = 1 (R146). Safe. -/
  | hazardBusy
  /-- Raised by a host register access at offset 0x1C to 0x3F (R45). Safe. -/
  | reservedOffset
  /-- Raised by a host register access that is not 32 bits wide or not 4-byte aligned (R46). Safe. -/
  | misaligned
  /-- Raised by a host buffer access at an index not below the buffer's size (R47). Safe. -/
  | outOfRange
  /-- Raised by a host or engine read of a buffer byte never written since reset (R36). Safe. -/
  | uninitRead
deriving DecidableEq, Repr

/-- Why a step has no meaning. -/
inductive Refusal where
  /-- Raised by an arm of `exec` whose command has no meaning yet. No arm does. Safe. -/
  | notModelled (mnemonic : String)
deriving DecidableEq, Repr

/-- R121: how a command ends. -/
inductive Err where
  | ok
  | capacity
  | invalidHeader
  | truncated
  | notByteAligned
  | illegalCommand
  | range
deriving DecidableEq, Repr

/-- R26: the fields of STATUS. The reserved bits read 0 and so are no state; `Status.word` is the register
as the host reads it (log 11). -/
structure Status where
  /-- BUSY, bit 0 (R27). -/
  busy : Bool
  /-- DONE, bit 1 (R28). -/
  done : Bool
  /-- ERR, bits 7:4 (R29). -/
  err : BitVec 4
deriving DecidableEq, Repr

/-- R24: the interface registers. -/
inductive Reg where
  | cmd
  | status
  | clen
  | mlen
  | hdr
  | rlen
  | cap
deriving DecidableEq, Repr

/-- R40: the three byte buffers. -/
inductive Buf where
  | cbuf
  | mbuf
  | obuf
deriving DecidableEq, Repr

/-- R46: the width of a register access; only 32 bits is legal. -/
inductive Width where
  | w8
  | w16
  | w32
deriving DecidableEq, Repr

/-- R43, R44, R47, R70, R71: one operation of a host program. A register offset is one of the 64 of the
register window (R40, R41). -/
inductive HostOp where
  /-- `HostRegRead(o)` with a width (R43, R46). -/
  | regRead (o : Fin 64) (width : Width)
  /-- `HostRegWrite(o, v)` with a width (R44, R46). -/
  | regWrite (o : Fin 64) (width : Width) (v : Word)
  /-- `HostBufRead(B, a)` (R47). -/
  | bufRead (b : Buf) (a : Nat)
  /-- `HostBufWrite(B, a, v)` (R47). -/
  | bufWrite (b : Buf) (a : Nat) (v : Byte)
  /-- `wait`: read STATUS until BUSY reads 0 (R71). -/
  | wait
deriving DecidableEq, Repr

/-- What a host read returned. -/
inductive Reply where
  | word (v : Word)
  | byte (v : Byte)
deriving DecidableEq, Repr

/-- Which agent moves (R6), or that reset is asserted (R140, log 6). -/
inductive Turn where
  | host
  | engine
  | reset
deriving DecidableEq, Repr

/-- A buffer's written bytes: (index, byte) pairs, indices strictly rising. An index that is not listed was never
written since reset (its written mark is 0, R36), so it has no value (R141, log 9). -/
abbrev Memory := List Host.Cell

/-- The canonical form of a buffer: strictly rising indices. -/
abbrev Memory.wf (m : Memory) : Prop := m.Pairwise fun x y => x.1 < y.1

/-- The state of one engine (R20) with the parameters fixed for it (log 1) and, for the model only, the
host's side of the interface and the interleaving of the two agents (log 3, log 14). CMD has no field
because it reads 0 and its written word lives in CMDL (R25, log 10). -/
structure State where
  /-- N_MAX, M_MAX, O_MAX and the placement; no step writes them. -/
  params : Params
  /-- STATUS (R26). -/
  status : Status
  /-- CLEN (R30). -/
  clen : Word
  /-- MLEN (R31). -/
  mlen : Word
  /-- HDR (R32). -/
  hdr : Word
  /-- RLEN (R33). -/
  rlen : Word
  /-- CAP (R34). -/
  cap : Word
  /-- CMDL, the hidden command latch (R35). -/
  cmdl : Word
  /-- CBUF and W_CBUF (R40, R36). -/
  cbuf : Memory
  /-- MBUF and W_MBUF (R40, R36). -/
  mbuf : Memory
  /-- OBUF and W_OBUF (R40, R36). -/
  obuf : Memory
  /-- FAULT, NONE or a reason (R37). -/
  fault : Option Fault
  /-- The host operations still to be performed, oldest first (model). -/
  prog : List HostOp
  /-- What the host's reads returned, oldest first (model). -/
  replies : List Reply
  /-- Which agent moves in the coming steps; when it is empty the engine moves if it is enabled (model). -/
  turns : List Turn
deriving DecidableEq, Repr

/-- R140: the state after reset of a machine with parameters `p`, with no host program. -/
def State.resetWith (p : Params) : State where
  params := p
  status := ⟨false, false, 0⟩
  clen := 0
  mlen := 0
  hdr := 0
  rlen := 0
  cap := 0
  cmdl := 0
  cbuf := []
  mbuf := []
  obuf := []
  fault := none
  prog := []
  replies := []
  turns := []

/-- R140: the machine right after reset, with the parameters of log 1. -/
def State.reset : State := State.resetWith Config.params

end Sys2Proof.Machine
end

