-- ==== Sys2Proof/Machine/Flags.lean ====
section
/-!
DEFINITION. The engine's only flags, STATUS.BUSY, STATUS.DONE and STATUS.ERR (R38): the error codes (R121), the
register as the host reads it (R26), and what acceptance and completion write (R109, R110).
-/

namespace Sys2Proof.Machine

/-- R121: the code of each way a command can end. -/
def Err.code (e : Err) : BitVec 4 :=
  match e with
  | .ok => 0
  | .capacity => 1
  | .invalidHeader => 2
  | .truncated => 3
  | .notByteAligned => 4
  | .illegalCommand => 5
  | .range => 6

/-- R26: STATUS as a word. ERR in bits 7:4, DONE in bit 1, BUSY in bit 0, every other bit 0. -/
def Status.word (st : Status) : Word :=
  0#24 ++ st.err ++ 0#2 ++ BitVec.ofBool st.done ++ BitVec.ofBool st.busy

/-- R109: STATUS after acceptance. -/
def Status.accepted : Status := ⟨true, false, 0⟩

/-- R110: STATUS after a command that ended with `e`. -/
def Status.completed (e : Err) : Status := ⟨false, true, e.code⟩

end Sys2Proof.Machine
end

