-- ==== Sys2Proof/Machine/Ops.lean ====
section
/-!
DEFINITION. The shared operations: the bytes of a buffer (R36, R47, R48), the buffers and registers of the state,
command acceptance (R109), completion with or without an error (R110, R129), a model fault (R37, R139) and
reset (R140).

The engine has no exception entry and no return from one: an error is a code in STATUS written at completion
(R129), `State.complete`; the next acceptance clears it (R130), `State.accept`.
-/

namespace Sys2Proof.Machine

/-- The byte at an index, or none where the written mark is 0 (R36). -/
def Memory.read (m : Memory) (a : Nat) : Option Byte :=
  match m with
  | [] => none
  | (b, v) :: rest => if a = b then some v else Memory.read rest a

/-- Write one byte and set its written mark (R36, R47), keeping the indices strictly rising. -/
def Memory.write (m : Memory) (a : Nat) (v : Byte) : Memory :=
  match m with
  | [] => [(a, v)]
  | (b, w) :: rest =>
    if a < b then (a, v) :: (b, w) :: rest
    else if a = b then (a, v) :: rest
    else (b, w) :: Memory.write rest a v

/-- Write bytes at consecutive indices from `a` on, in order. -/
def Memory.writeBytes (m : Memory) (a : Nat) (vs : List Byte) : Memory :=
  match vs with
  | [] => m
  | v :: rest => Memory.writeBytes (m.write a v) (a + 1) rest

/-- The `n` bytes from index `a` on, or none if one of them was never written (UNINIT_READ, R36). -/
def Memory.readBytes (m : Memory) (a n : Nat) : Option (List Byte) :=
  match n with
  | 0 => some []
  | n + 1 =>
    match m.read a with
    | none => none
    | some v =>
      match Memory.readBytes m (a + 1) n with
      | none => none
      | some vs => some (v :: vs)

/-- R40: the size of each buffer. -/
def bufSize (p : Params) (b : Buf) : Nat :=
  match b with
  | .cbuf => p.nMax
  | .mbuf => p.mMax
  | .obuf => p.oMax

/-- A buffer of the state. -/
def State.buf (s : State) (b : Buf) : Memory :=
  match b with
  | .cbuf => s.cbuf
  | .mbuf => s.mbuf
  | .obuf => s.obuf

/-- Replace a buffer of the state. -/
def State.withBuf (s : State) (b : Buf) (m : Memory) : State :=
  match b with
  | .cbuf => { s with cbuf := m }
  | .mbuf => { s with mbuf := m }
  | .obuf => { s with obuf := m }

/-- R109: command acceptance. No check is made: a reserved word is accepted and fails when executed. -/
def State.accept (s : State) (v : Word) : State :=
  { s with cmdl := v, status := Status.accepted }

/-- R110, R129: command completion with code `e`. -/
def State.complete (s : State) (e : Err) : State :=
  { s with status := Status.completed e }

/-- R37, R110: a model fault sets FAULT and writes nothing else (log 2). -/
def State.setFault (s : State) (r : Fault) : State :=
  { s with fault := some r }

/-- R140, R142: reset of the engine. The parameters are fixed; the host's program, its replies and the
interleaving are not the engine's and stay (log 6). -/
def State.assertReset (s : State) : State :=
  { State.resetWith s.params with prog := s.prog, replies := s.replies, turns := s.turns }

/-- R43, R26: the value of a register as the host reads it; CMD reads 0 (R25). -/
def State.regValue (s : State) (r : Reg) : Word :=
  match r with
  | .cmd => 0
  | .status => s.status.word
  | .clen => s.clen
  | .mlen => s.mlen
  | .hdr => s.hdr
  | .rlen => s.rlen
  | .cap => s.cap

/-- R44: a host write to a register of an idle engine. CMD accepts a command, CLEN and MLEN store every bit, and
a write to a read-only register is ignored. -/
def State.regStore (s : State) (r : Reg) (v : Word) : State :=
  match r with
  | .cmd => s.accept v
  | .status => s
  | .clen => { s with clen := v }
  | .mlen => { s with mlen := v }
  | .hdr => s
  | .rlen => s
  | .cap => s

/-- How Execute(CMDL) ends (R110): with an error code and what the command wrote, or with a model fault. -/
inductive Result where
  | ends (e : Err) (s : State)
  | faults (r : Fault)
deriving DecidableEq, Repr

/-- R110: the engine step around Execute. It writes the code and completes, or sets FAULT in the state `s` before
the command and writes nothing else. -/
def Result.finish (x : Result) (s : State) : Host.Outcome State Fault Refusal :=
  match x with
  | .ends e s' => .next (s'.complete e)
  | .faults r => .next (s.setFault r)

end Sys2Proof.Machine
end

