-- ==== Sys2Proof/Machine/Operands.lean ====
section
/-!
DEFINITION. The implicit operands of every command (R66): the lengths N and L, the named constants (R10), the
units of a carrier byte (R80 to R82, R95) and capacity (R74, R83, R84).
-/

namespace Sys2Proof.Machine

/-- N, the carrier length in bytes (R30). -/
def State.carrierLen (s : State) : Nat := s.clen.toNat

/-- L, the message length in bytes (R31). -/
def State.messageLen (s : State) : Nat := s.mlen.toNat

/-- R10: HEADER_BITS. -/
def headerBits : Nat := 32

/-- R10, R80: UNITS, the embedded bits of a carrier byte. -/
def units (sch : Scheme) : Nat :=
  match sch with
  | .basic => 1
  | .enhancedFlip => 2
  | .enhancedNoFlip => 2

/-- R10: HEADER_BYTES, the carrier bytes that hold the header. -/
def headerBytes (sch : Scheme) : Nat :=
  match sch with
  | .basic => 32
  | .enhancedFlip => 16
  | .enhancedNoFlip => 16

/-- R10: MASK_B, bit 0. -/
def maskB : Byte := 0x01

/-- R10: MASK_E, bits 2 and 3. -/
def maskE : Byte := 0x0C

/-- R10: CLEAR_E, the complement of MASK_E. -/
def clearE : Byte := 0xF3

/-- R10: FLIP, bits 0 and 1. -/
def flipMask : Byte := 0x03

/-- R74: TotalBits(L). -/
def totalBits (l : Nat) : Nat := headerBits + 8 * l

/-- R83: CapacityBits(N, scheme), header included. -/
def capacityBits (n : Nat) (sch : Scheme) : Nat := n * units sch

/-- R84: the capacity in bits after the header, 0 when the header does not fit. -/
def payloadCapacityBits (n : Nat) (sch : Scheme) : Nat := capacityBits n sch - headerBits

/-- R49: K, the carrier bytes that a frame of `t` bits occupies. -/
def frameBytes (t : Nat) (sch : Scheme) : Nat := t / units sch

/-- R113: the carrier length is beyond CBUF. -/
abbrev State.carrierTooLong (s : State) : Prop := s.params.nMax < s.carrierLen

/-- R113: the message length is beyond MBUF. -/
abbrev State.messageTooLong (s : State) : Prop := s.params.mMax < s.messageLen

/-- R95: the target pattern T(a, b) = 8a + 4b in bits 3 and 2. -/
def pairPattern (a b : Bool) : Byte := BitVec.ofNat 8 (8 * a.toNat + 4 * b.toNat)

/-- R81: ReadUnit on the carrier byte `v`, its bits in stream order. -/
def readUnit (sch : Scheme) (v : Byte) : BitString :=
  match sch with
  | .basic => [v.getLsbD 0]
  | .enhancedFlip => [v.getLsbD 3, v.getLsbD 2]
  | .enhancedNoFlip => [v.getLsbD 3, v.getLsbD 2]

/-- R82: WriteUnit for Basic on the carrier byte `v`; bits 1 to 7 stay. -/
def writeUnitB (v : Byte) (a : Bool) : Byte := (v &&& ~~~maskB) ||| BitVec.ofNat 8 a.toNat

/-- R82: WriteUnit for the enhanced schemes; bits 0, 1 and 4 to 7 stay. -/
def writeUnitE (v : Byte) (a b : Bool) : Byte := (v &&& clearE) ||| pairPattern a b

/-- R102: the EnhancedFlip perturbation, applied before the unit is written. Bits 0 and 1 are inverted unless bits
2 and 3 already hold the target pattern. -/
def flipFor (v : Byte) (a b : Bool) : Byte :=
  if v &&& maskE ≠ pairPattern a b then v ^^^ flipMask else v

end Sys2Proof.Machine
end

