-- ==== Sys2Proof/Machine/Framer.lean ====
section
/-!
DEFINITION. BitFramer, the datapath inside ENC and DEC: Frame (R72 to R74), HeaderValue (R75) and Parse (R76 to R78).
-/

namespace Sys2Proof.Machine

/-- R52, R72: the bits of a value, most significant first. -/
def bitsMsbFirst (w : Nat) (v : BitVec w) : BitString :=
  (List.range w).map fun i => v.getLsbD (w - 1 - i)

/-- R72, R73: the 32 header bits of a message of `l` bytes; the header counts bits. -/
def headerOf (l : Nat) : BitString := bitsMsbFirst 32 (BitVec.ofNat 32 (8 * l))

/-- R72: the payload bits, in message order. -/
def payloadOf (msg : List Byte) : BitString := msg.flatMap (bitsMsbFirst 8)

/-- R72: Frame. -/
def frame (msg : List Byte) : BitString := headerOf msg.length ++ payloadOf msg

/-- R75: the value of bits read most significant first. -/
def bitsValue (bits : BitString) : Nat :=
  bits.foldl (fun acc b => 2 * acc + b.toNat) 0

/-- R75: HeaderValue of the 32 header bits in stream order. -/
def headerValue (h : BitString) : Nat := bitsValue h

/-- R76: the bytes of consecutive groups of 8 bits, `n` of them. -/
def groupBytes (p : BitString) (n : Nat) : List Byte :=
  match n with
  | 0 => []
  | n + 1 => BitVec.ofNat 8 (bitsValue (p.take 8)) :: groupBytes (p.drop 8) n

/-- R76, R77, R78: Parse. Truncated is checked first; bits beyond the header's length are ignored. -/
def parse (hdr : Nat) (p : BitString) : Except Err (List Byte) :=
  if p.length < hdr then .error .truncated
  else if hdr % 8 ≠ 0 then .error .notByteAligned
  else .ok (groupBytes p (hdr / 8))

end Sys2Proof.Machine
end

