-- ==== Sys2Proof/Machine/Schemes.lean ====
section
/-!
DEFINITION. The three embedding schemes as functions of the carrier: EmbedB (R88), EmbedEN (R96), EmbedEF (R102),
ExtractB (R90) and ExtractE (R98, R105). A read of a carrier byte that was never written has no result (R36).
-/

namespace Sys2Proof.Machine

/-- Replace each of the carrier bytes from index `k` on by a function of its own value, in place and in order
(R50), or nothing if one of them was never written. Each byte is read and written exactly once (R49). -/
def rewriteBytes (fs : List (Byte → Byte)) (k : Nat) (m : Memory) : Option Memory :=
  match fs with
  | [] => some m
  | f :: rest =>
    match m.read k with
    | none => none
    | some v => rewriteBytes rest (k + 1) (m.write k (f v))

/-- R96: the stream bits two at a time. A frame has an even number of bits (R74), so the single last bit of an odd
stream never occurs; it makes no pair (log 15). -/
def pairsOf (s : BitString) : List (Bool × Bool) :=
  match s with
  | [] => []
  | [_] => []
  | a :: b :: rest => (a, b) :: pairsOf rest

/-- R88: EmbedB, stream bit i to bit 0 of carrier byte i. -/
def embedB (s : BitString) (m : Memory) : Option Memory :=
  rewriteBytes (s.map fun a v => writeUnitB v a) 0 m

/-- R96: EmbedEN, stream bits 2k and 2k + 1 to bits 3 and 2 of carrier byte k. -/
def embedEN (s : BitString) (m : Memory) : Option Memory :=
  rewriteBytes ((pairsOf s).map fun p v => writeUnitE v p.1 p.2) 0 m

/-- R102: EmbedEF, the packing of EmbedEN with bits 0 and 1 of the pre-write byte flipped where bits 2 and 3 are
about to change. -/
def embedEF (s : BitString) (m : Memory) : Option Memory :=
  rewriteBytes ((pairsOf s).map fun p v => writeUnitE (flipFor v p.1 p.2) p.1 p.2) 0 m

/-- R116: the embedding of a scheme. -/
def embed (sch : Scheme) (s : BitString) (m : Memory) : Option Memory :=
  match sch with
  | .basic => embedB s m
  | .enhancedFlip => embedEF s m
  | .enhancedNoFlip => embedEN s m

/-- The stream bits of `n` carrier bytes from index `a` on (R81), or none if one of them was never written. -/
def readUnits (sch : Scheme) (m : Memory) (a n : Nat) : Option BitString :=
  match m.readBytes a n with
  | none => none
  | some vs => some (vs.flatMap (readUnit sch))

/-- What an extractor comes to (R90, R98). -/
inductive Extracted where
  /-- N < HEADER_BYTES: InvalidHeader, and HDR is not written (D12). -/
  | short
  /-- A carrier byte that the extractor reads was never written (UNINIT_READ, R36). -/
  | unwritten
  /-- The header exceeds what the carrier can hold: HDR is written, then InvalidHeader. -/
  | tooLong (hdr : Nat)
  /-- The header, written to HDR, and the payload bits delivered. -/
  | bits (hdr : Nat) (p : BitString)
deriving DecidableEq, Repr

/-- R90: ExtractB on a carrier of `n` bytes. -/
def extractB (n : Nat) (m : Memory) : Extracted :=
  if n < 32 then .short
  else
    match readUnits .basic m 0 32 with
    | none => .unwritten
    | some h =>
      if n - 32 < headerValue h then .tooLong (headerValue h)
      else
        match readUnits .basic m 32 (headerValue h) with
        | none => .unwritten
        | some p => .bits (headerValue h) p

/-- R98, R99: ExtractE, shared by EnhancedNoFlip and EnhancedFlip (R105). An odd header delivers one bit less. -/
def extractE (n : Nat) (m : Memory) : Extracted :=
  if n < 16 then .short
  else
    match readUnits .enhancedNoFlip m 0 16 with
    | none => .unwritten
    | some h =>
      if 2 * (n - 16) < headerValue h then .tooLong (headerValue h)
      else
        match readUnits .enhancedNoFlip m 16 (headerValue h / 2) with
        | none => .unwritten
        | some p => .bits (headerValue h) p

/-- R117: the extraction of a scheme. -/
def extract (sch : Scheme) (n : Nat) (m : Memory) : Extracted :=
  match sch with
  | .basic => extractB n m
  | .enhancedFlip => extractE n m
  | .enhancedNoFlip => extractE n m

end Sys2Proof.Machine
end

