-- ==== Sys2Proof/Machine/Codec.lean ====
section
/-!
DEFINITION. The sequences that the commands share (R111, R116, R117) and the end of a reserved word (R112). Every
check stands before the first write of a buffer byte (R115); the order of the checks is that of R128.
-/

namespace Sys2Proof.Machine

/-- R116: the ENCODE sequence. -/
def encodeSeq (sch : Scheme) (s : State) : Result :=
  if s.carrierTooLong ∨ s.messageTooLong then .ends .range s
  else if capacityBits s.carrierLen sch < totalBits s.messageLen then .ends .capacity s
  else
    match s.mbuf.readBytes 0 s.messageLen with
    | none => .faults .uninitRead
    | some msg =>
      match embed sch (frame msg) s.cbuf with
      | none => .faults .uninitRead
      | some m => .ends .ok { s with cbuf := m }

/-- R90, R98: `x[HDR] <- hdr`. -/
def State.withHdr (s : State) (hdr : Nat) : State := { s with hdr := BitVec.ofNat 32 hdr }

/-- R117: a decoded message goes to OBUF from index 0 on and its length to RLEN. -/
def State.deliver (s : State) (hdr : Nat) (out : List Byte) : State :=
  { s with obuf := s.obuf.writeBytes 0 out, rlen := BitVec.ofNat 32 (hdr / 8) }

/-- R117: the DECODE sequence. -/
def decodeSeq (sch : Scheme) (s : State) : Result :=
  if s.carrierTooLong then .ends .range s
  else
    match extract sch s.carrierLen s.cbuf with
    | .short => .ends .invalidHeader s
    | .unwritten => .faults .uninitRead
    | .tooLong hdr => .ends .invalidHeader (s.withHdr hdr)
    | .bits hdr p =>
      match parse hdr p with
      | .error e => .ends e (s.withHdr hdr)
      | .ok out => .ends .ok ((s.withHdr hdr).deliver hdr out)

/-- R111: the CAP sequence. -/
def capSeq (sch : Scheme) (s : State) : Result :=
  if s.carrierTooLong then .ends .range s
  else .ends .ok { s with cap := BitVec.ofNat 32 (capacityBits s.carrierLen sch) }

/-- R112: a word that decodes to ILLEGAL completes with ILLEGAL_COMMAND. -/
def execIllegal (s : State) : Host.Outcome State Fault Refusal :=
  (Result.ends .illegalCommand s).finish s

end Sys2Proof.Machine
end

