-- ==== Sys2Proof/Machine/Capacity.lean ====
section
/-!
DEFINITION. The meanings of the three capacity queries.
-/

namespace Sys2Proof.Machine

/-- R85: CAP.B. -/
def execCapB (s : State) : Host.Outcome State Fault Refusal := (capSeq .basic s).finish s

/-- R86: CAP.EF. -/
def execCapEf (s : State) : Host.Outcome State Fault Refusal := (capSeq .enhancedFlip s).finish s

/-- R87: CAP.EN. -/
def execCapEn (s : State) : Host.Outcome State Fault Refusal := (capSeq .enhancedNoFlip s).finish s

end Sys2Proof.Machine
end

