-- ==== Sys2Proof/Machine/Decoding.lean ====
section
/-!
DEFINITION. The meanings of the three DEC commands.
-/

namespace Sys2Proof.Machine

/-- R94: DEC.B. -/
def execDecB (s : State) : Host.Outcome State Fault Refusal := (decodeSeq .basic s).finish s

/-- R108: DEC.EF. -/
def execDecEf (s : State) : Host.Outcome State Fault Refusal := (decodeSeq .enhancedFlip s).finish s

/-- R101: DEC.EN. -/
def execDecEn (s : State) : Host.Outcome State Fault Refusal := (decodeSeq .enhancedNoFlip s).finish s

end Sys2Proof.Machine
end

