-- ==== Sys2Proof/Machine/Encode.lean ====
section
/-!
DEFINITION. The meanings of the three ENC commands.
-/

namespace Sys2Proof.Machine

/-- R93: ENC.B. -/
def execEncB (s : State) : Host.Outcome State Fault Refusal := (encodeSeq .basic s).finish s

/-- R107: ENC.EF. -/
def execEncEf (s : State) : Host.Outcome State Fault Refusal := (encodeSeq .enhancedFlip s).finish s

/-- R100: ENC.EN. -/
def execEncEn (s : State) : Host.Outcome State Fault Refusal := (encodeSeq .enhancedNoFlip s).finish s

end Sys2Proof.Machine
end

