-- ==== Sys2Proof/Machine/Nop.lean ====
section
/-!
DEFINITION. The meaning of NOP.
-/

namespace Sys2Proof.Machine

/-- R119: NOP reads no operand and completes with OK. -/
def execNop (s : State) : Host.Outcome State Fault Refusal :=
  (Result.ends .ok s).finish s

end Sys2Proof.Machine
end

