-- ==== Sys2Proof/Machine/Dispatch.lean ====
section
/-!
DEFINITION. The meaning of each command (R111), around which the engine step completes it (R110).
-/

namespace Sys2Proof.Machine

/-- R111: the command's effect on a state in which the engine step is enabled. -/
def exec (i : Instr) (s : State) : Host.Outcome State Fault Refusal :=
  match i with
  | .nop => Sys2Proof.Machine.execNop s
  | .encB => Sys2Proof.Machine.execEncB s
  | .encEf => Sys2Proof.Machine.execEncEf s
  | .encEn => Sys2Proof.Machine.execEncEn s
  | .decB => Sys2Proof.Machine.execDecB s
  | .decEf => Sys2Proof.Machine.execDecEf s
  | .decEn => Sys2Proof.Machine.execDecEn s
  | .capB => Sys2Proof.Machine.execCapB s
  | .capEf => Sys2Proof.Machine.execCapEf s
  | .capEn => Sys2Proof.Machine.execCapEn s

end Sys2Proof.Machine
end

