-- ==== Sys2Proof/Machine/HostAccess.lean ====
section
/-!
DEFINITION. The host's accesses to the registers and buffers (R43 to R47) with the hazard rule (R146), and one turn
of the host, which performs the next operation of its program (R57, R70, R71).

Where two model faults apply to one access, HAZARD_BUSY comes first, then MISALIGNED, then RESERVED_OFFSET
(DESIGN CHOICE, log 7).
-/

namespace Sys2Proof.Machine

/-- R24: the register at an offset; 0x1C to 0x3F is reserved. -/
def regAt (o : Fin 64) : Option Reg :=
  match o.val with
  | 0x00 => some .cmd
  | 0x04 => some .status
  | 0x08 => some .clen
  | 0x0C => some .mlen
  | 0x10 => some .hdr
  | 0x14 => some .rlen
  | 0x18 => some .cap
  | _ => none

/-- R24: the offset of a register. -/
def Reg.offset (r : Reg) : Fin 64 :=
  match r with
  | .cmd => 0x00
  | .status => 0x04
  | .clen => 0x08
  | .mlen => 0x0C
  | .hdr => 0x10
  | .rlen => 0x14
  | .cap => 0x18

/-- R45, R46: the register that an access of this width and offset reaches, or the fault it raises. -/
def regAccess (o : Fin 64) (width : Width) : Except Fault Reg :=
  if width ≠ .w32 ∨ o.val % 4 ≠ 0 then .error .misaligned
  else
    match regAt o with
    | none => .error .reservedOffset
    | some r => .ok r

/-- R146: a read of STATUS, the one access that the host may make while BUSY = 1. -/
abbrev isStatusRead (o : Fin 64) (width : Width) : Prop := o = Reg.offset .status ∧ width = .w32

/-- R43, R45, R46, R146: HostRegRead. -/
def hostRegRead (s : State) (o : Fin 64) (width : Width) : Except Fault Word :=
  if s.status.busy ∧ ¬ isStatusRead o width then .error .hazardBusy
  else
    match regAccess o width with
    | .error r => .error r
    | .ok reg => .ok (s.regValue reg)

/-- R44, R45, R46, R146: HostRegWrite. -/
def hostRegWrite (s : State) (o : Fin 64) (width : Width) (v : Word) : Except Fault State :=
  if s.status.busy then .error .hazardBusy
  else
    match regAccess o width with
    | .error r => .error r
    | .ok reg => .ok (s.regStore reg v)

/-- R47, R36, R146: HostBufRead. -/
def hostBufRead (s : State) (b : Buf) (a : Nat) : Except Fault Byte :=
  if s.status.busy then .error .hazardBusy
  else if bufSize s.params b ≤ a then .error .outOfRange
  else
    match (s.buf b).read a with
    | none => .error .uninitRead
    | some v => .ok v

/-- R47, R36, R146: HostBufWrite. -/
def hostBufWrite (s : State) (b : Buf) (a : Nat) (v : Byte) : Except Fault State :=
  if s.status.busy then .error .hazardBusy
  else if bufSize s.params b ≤ a then .error .outOfRange
  else .ok (s.withBuf b ((s.buf b).write a v))

/-- The first operation of the host's program is done. -/
def State.popOp (s : State) : State := { s with prog := s.prog.tail }

/-- A host read returned a value. -/
def State.reply (s : State) (r : Reply) : State := { s with replies := s.replies ++ [r] }

/-- One operation of the host, the first of its program in `s`. A model fault sets FAULT and leaves all else as it was,
the operation included (log 8). `wait` is one read of STATUS a turn and is done when BUSY reads 0 (R71, log 14). -/
def hostPerform (op : HostOp) (s : State) : State :=
  match op with
  | .regRead o width =>
    match hostRegRead s o width with
    | .error r => s.setFault r
    | .ok v => (s.reply (.word v)).popOp
  | .regWrite o width v =>
    match hostRegWrite s o width v with
    | .error r => s.setFault r
    | .ok s' => s'.popOp
  | .bufRead b a =>
    match hostBufRead s b a with
    | .error r => s.setFault r
    | .ok v => (s.reply (.byte v)).popOp
  | .bufWrite b a v =>
    match hostBufWrite s b a v with
    | .error r => s.setFault r
    | .ok s' => s'.popOp
  | .wait =>
    match hostRegRead s (Reg.offset .status) .w32 with
    | .error r => s.setFault r
    | .ok v =>
      if v.getLsbD 0 then s.reply (.word v) else (s.reply (.word v)).popOp

/-- A turn of the host. With no operation left nothing changes (R138, R143; log 5). -/
def hostTurn (s : State) : State :=
  match s.prog with
  | [] => s
  | op :: _ => hostPerform op s

end Sys2Proof.Machine
end

