-- ==== Sys2Proof/Machine/Schedule.lean ====
section
/-!
DEFINITION. Which agent moves next (R6, R57, R149, R150). The order is plain data in the state, so a statement about
every state is a statement about every interleaving; the list is finite and the engine moves once it is used up,
which is the fairness of R150 (log 3, log 4).
-/

namespace Sys2Proof.Machine

/-- The next turn: the first of the list, and when it is empty the engine's while BUSY = 1, else the host's. -/
def State.nextTurn (s : State) : Turn :=
  match s.turns with
  | [] => if s.status.busy then .engine else .host
  | t :: _ => t

/-- The next turn is taken. -/
def State.popTurn (s : State) : State := { s with turns := s.turns.tail }

end Sys2Proof.Machine
end

