-- ==== Sys2Proof/Machine/Step.lean ====
section
/-!
DEFINITION. One step of the machine: a turn of the host, the engine step (R110), or reset (R140). The engine fetches
no instruction: it takes its command from CMDL (R35, R60).
-/

namespace Sys2Proof.Machine

/-- R110, R111, R112: run the latched word. -/
def runLatched (s : State) : Host.Outcome State Fault Refusal :=
  match decode s.cmdl with
  | .ok i => exec i s
  | .error _ => execIllegal s

/-- One step. With FAULT ≠ NONE there is none (R37). The engine step is enabled exactly when BUSY = 1 (R27, R110); a turn
of an engine that is not enabled changes nothing but the turn list (log 5). -/
def step (s : State) : Host.Outcome State Fault Refusal :=
  match s.fault with
  | some r => .fault r
  | none =>
    match s.nextTurn with
    | .engine => if s.status.busy then runLatched s.popTurn else .next s.popTurn
    | .host => .next (hostTurn s.popTurn)
    | .reset => .next s.popTurn.assertReset

/-- The state in which the command word whose low `nbits` bits are those of `w` was just accepted (R109) and the
engine moves next (log 12). -/
def State.withFetchWord (s : State) (nbits w : Nat) : State :=
  { s.accept (BitVec.ofNat 32 (w % 2 ^ nbits)) with fault := none, turns := .engine :: s.turns }

end Sys2Proof.Machine
end

