-- ==== Sys2Proof/Machine/HostProgram.lean ====
section
/-!
DEFINITION. The host operations by register name and the pseudo-operations, as lists of host operations (R70, R71).
-/

namespace Sys2Proof.Machine

/-- R70: `rd REG`. -/
def rd (r : Reg) : List HostOp := [.regRead r.offset .w32]

/-- R70: `wr REG, v`. -/
def wr (r : Reg) (v : Word) : List HostOp := [.regWrite r.offset .w32 v]

/-- R70: `rb BUF[a]`. -/
def rb (b : Buf) (a : Nat) : List HostOp := [.bufRead b a]

/-- R70: `wb BUF[a], v`. -/
def wb (b : Buf) (a : Nat) (v : Byte) : List HostOp := [.bufWrite b a v]

/-- R71: `cmd M`. -/
def cmdOp (i : Instr) : List HostOp := wr .cmd (encode i)

/-- R71: `wait`. -/
def waitOp : List HostOp := [.wait]

/-- R71: `fill BUF[a..b), v`. The expansion of R71 has no meaning for b < a; the model takes such a line as no operation, as it does
the empty range b = a (DESIGN CHOICE, log 23). -/
def fill (b : Buf) (a e : Nat) (v : Byte) : List HostOp :=
  (List.range (e - a)).map fun k => .bufWrite b (a + k) v

/-- R71: `wbytes BUF[a], v0, v1, …`. -/
def wbytes (b : Buf) (a : Nat) (vs : List Byte) : List HostOp :=
  match vs with
  | [] => []
  | v :: rest => .bufWrite b a v :: wbytes b (a + 1) rest

/-- R71: `run M`. -/
def runOp (i : Instr) : List HostOp := cmdOp i ++ waitOp

end Sys2Proof.Machine
end

