-- ==== Sys2Proof/Machine/Assembler.lean ====
section
/-!
DEFINITION. The assembler syntax of a host program (R70, R71): one line of text, as its characters, to the host
operations it stands for. A line that the syntax does not have is rejected. What R70 leaves open of the text (blanks, the case
of hexadecimal digits, numbers that do not fit) is the model's choice (log 24).
-/

namespace Sys2Proof.Machine

/-- R70: the value of a digit, in decimal and hexadecimal. -/
def digitValue (c : Char) : Option Nat :=
  if '0' ≤ c ∧ c ≤ '9' then some (c.toNat - '0'.toNat)
  else if 'a' ≤ c ∧ c ≤ 'f' then some (c.toNat - 'a'.toNat + 10)
  else if 'A' ≤ c ∧ c ≤ 'F' then some (c.toNat - 'A'.toNat + 10)
  else none

/-- The digits `cs` in base `base`, after the value `acc` of the digits before them. -/
def digitsValue (base acc : Nat) (cs : List Char) : Option Nat :=
  match cs with
  | [] => some acc
  | c :: rest =>
    match digitValue c with
    | none => none
    | some d => if d < base then digitsValue base (base * acc + d) rest else none

/-- R70: a number, decimal or 0x hexadecimal. -/
def parseNumber (cs : List Char) : Option Nat :=
  match cs with
  | '0' :: 'x' :: c :: rest => digitsValue 16 0 (c :: rest)
  | c :: rest => digitsValue 10 0 (c :: rest)
  | [] => none

/-- A number below `2 ^ w`, the value of a 32-bit register or of a byte. -/
def parseValue (w : Nat) (cs : List Char) : Option (BitVec w) :=
  match parseNumber cs with
  | none => none
  | some v => if v < 2 ^ w then some (BitVec.ofNat w v) else none

/-- R70: a register by its name in R24. -/
def parseReg (cs : List Char) : Option Reg :=
  match cs with
  | ['C', 'M', 'D'] => some .cmd
  | ['S', 'T', 'A', 'T', 'U', 'S'] => some .status
  | ['C', 'L', 'E', 'N'] => some .clen
  | ['M', 'L', 'E', 'N'] => some .mlen
  | ['H', 'D', 'R'] => some .hdr
  | ['R', 'L', 'E', 'N'] => some .rlen
  | ['C', 'A', 'P'] => some .cap
  | _ => none

/-- R70: a buffer by its name. -/
def parseBuf (cs : List Char) : Option Buf :=
  match cs with
  | ['C', 'B', 'U', 'F'] => some .cbuf
  | ['M', 'B', 'U', 'F'] => some .mbuf
  | ['O', 'B', 'U', 'F'] => some .obuf
  | _ => none

/-- R70: a command by its mnemonic. -/
def parseMnemonic (cs : List Char) : Option Instr :=
  Instr.all.find? fun i => i.mnemonic.toList == cs

/-- The characters before the first `c`, and those after it if there is one. -/
def cutAt (c : Char) (cs : List Char) : List Char × Option (List Char) :=
  match cs with
  | [] => ([], none)
  | d :: rest =>
    if d = c then ([], some rest)
    else ((d :: (cutAt c rest).1), (cutAt c rest).2)

/-- R70: `; text` is a comment. -/
def dropComment (cs : List Char) : List Char := (cutAt ';' cs).1

/-- A blank between the words of a line. -/
abbrev isBlank (c : Char) : Prop := c = ' ' ∨ c = '\t'

/-- Characters without the blanks before the first other character. -/
def dropBlanks (cs : List Char) : List Char := cs.dropWhile fun c => isBlank c

/-- Characters without the blanks at both ends. -/
def trim (cs : List Char) : List Char := (dropBlanks (dropBlanks cs).reverse).reverse

/-- The parts of `cs` between commas. -/
def commaParts (cs : List Char) : List (List Char) :=
  match cs with
  | [] => [[]]
  | c :: rest =>
    if c = ',' then [] :: commaParts rest
    else
      match commaParts rest with
      | [] => [[c]]
      | part :: parts => (c :: part) :: parts

/-- R70: `BUF[a]`. -/
def parseByteRef (cs : List Char) : Option (Buf × Nat) :=
  match cutAt '[' cs with
  | (name, some rest) =>
    match cutAt ']' rest with
    | (index, some []) =>
      match parseBuf name, parseNumber index with
      | some b, some a => some (b, a)
      | _, _ => none
    | _ => none
  | _ => none

/-- R71: `BUF[a..b)`. -/
def parseRangeRef (cs : List Char) : Option (Buf × Nat × Nat) :=
  match cutAt '[' cs with
  | (name, some rest) =>
    match cutAt '.' rest with
    | (first, some ('.' :: rest)) =>
      match cutAt ')' rest with
      | (last, some []) =>
        match parseBuf name, parseNumber first, parseNumber last with
        | some b, some a, some e => some (b, a, e)
        | _, _, _ => none
      | _ => none
    | _ => none
  | _ => none

/-- The bytes of `v0, v1, …, vk`. -/
def parseBytes (parts : List (List Char)) : Option (List Byte) :=
  match parts with
  | [] => some []
  | p :: rest =>
    match parseValue 8 p, parseBytes rest with
    | some v, some vs => some (v :: vs)
    | _, _ => none

/-- R70, R71: the operands of the operation named `op`, split at commas, to host operations. -/
def assembleOp (op : List Char) (args : List (List Char)) : Option (List HostOp) :=
  match op, args with
  | ['w', 'r'], [r, v] =>
    match parseReg r, parseValue 32 v with
    | some r, some v => some (wr r v)
    | _, _ => none
  | ['r', 'd'], [r] => (parseReg r).map rd
  | ['w', 'b'], [ref, v] =>
    match parseByteRef ref, parseValue 8 v with
    | some (b, a), some v => some (wb b a v)
    | _, _ => none
  | ['r', 'b'], [ref] => (parseByteRef ref).map fun x => rb x.1 x.2
  | ['c', 'm', 'd'], [m] => (parseMnemonic m).map cmdOp
  | ['w', 'a', 'i', 't'], [[]] => some waitOp
  | ['f', 'i', 'l', 'l'], [ref, v] =>
    match parseRangeRef ref, parseValue 8 v with
    | some (b, a, e), some v => some (fill b a e v)
    | _, _ => none
  | ['w', 'b', 'y', 't', 'e', 's'], ref :: v :: vs =>
    match parseByteRef ref, parseBytes (v :: vs) with
    | some (b, a), some vs => some (wbytes b a vs)
    | _, _ => none
  | ['r', 'u', 'n'], [m] => (parseMnemonic m).map runOp
  | _, _ => none

/-- R70: one line of a host program. A blank or comment line is no operation. -/
def assembleLine (cs : List Char) : Option (List HostOp) :=
  let line := trim (dropComment cs)
  if line = [] then some []
  else
    assembleOp (line.takeWhile fun c => ¬ isBlank c)
      ((commaParts (line.dropWhile fun c => ¬ isBlank c)).map trim)

/-- R70: a host program, one operation per line. -/
def assemble (lines : List (List Char)) : Option (List HostOp) :=
  match lines with
  | [] => some []
  | l :: rest =>
    match assembleLine l, assemble rest with
    | some ops, some more => some (ops ++ more)
    | _, _ => none

end Sys2Proof.Machine
end

