-- ==== Sys2Proof/Machine/Bus.lean ====
section
/-!
DEFINITION. Where the register window and the buffers stand on the host's bus (R41, R42, R55) and the bus
transaction of each host operation (R70). The operations themselves use only the offset or the index (R42; log 13).
-/

namespace Sys2Proof.Machine

/-- What a bus address of the engine names. -/
inductive Target where
  /-- A register offset (R41). -/
  | reg (o : Fin 64)
  /-- A byte of a buffer (R42). -/
  | byte (b : Buf) (a : Nat)
deriving DecidableEq, Repr

/-- R42: the base address of each buffer. -/
def bufBase (p : Params) (b : Buf) : Nat :=
  match b with
  | .cbuf => p.cbufBase
  | .mbuf => p.mbufBase
  | .obuf => p.obufBase

/-- R41, R42: the bus address of a target. -/
def busAddr (p : Params) (t : Target) : Nat :=
  match t with
  | .reg o => p.regBase + o.val
  | .byte b a => bufBase p b + a

/-- An address lies in the window of `n` addresses from `base` on. -/
abbrev inWindow (base n addr : Nat) : Prop := base ≤ addr ∧ addr < base + n

/-- R41, R42: the target of a bus address, none outside the four windows. -/
def busTarget (p : Params) (addr : Nat) : Option Target :=
  if inWindow p.regBase 64 addr then some (.reg (Fin.ofNat 64 (addr - p.regBase)))
  else if inWindow p.cbufBase p.nMax addr then some (.byte .cbuf (addr - p.cbufBase))
  else if inWindow p.mbufBase p.mMax addr then some (.byte .mbuf (addr - p.mbufBase))
  else if inWindow p.obufBase p.oMax addr then some (.byte .obuf (addr - p.obufBase))
  else none

/-- R70: a bus transaction; `value` is none for a read. -/
structure Transaction where
  addr : Nat
  width : Width
  value : Option Word
deriving DecidableEq, Repr

/-- R70, R71: the bus transaction of a host operation; `wait` reads STATUS. -/
def HostOp.transaction (p : Params) (op : HostOp) : Transaction :=
  match op with
  | .regRead o width => ⟨busAddr p (.reg o), width, none⟩
  | .regWrite o width v => ⟨busAddr p (.reg o), width, some v⟩
  | .bufRead b a => ⟨busAddr p (.byte b a), .w8, none⟩
  | .bufWrite b a v => ⟨busAddr p (.byte b a), .w8, some (v.setWidth 32)⟩
  | .wait => ⟨busAddr p (.reg (Reg.offset .status)), .w32, none⟩

end Sys2Proof.Machine
end

