-- ==== Sys2Proof/Safety.lean ====
section
/-!
DEFINITION. What counts as a safe run, the invariant of the machine, the ends of a command and of a host program (R151), and the terms that the statements use: whose turn it is, what a command needs (R144), and the frame and the
stream of a carrier written as the spec's index formulas (R72, R75, R76, R81, R95), apart from the datapath.
-/

namespace Sys2Proof.Machine

/-- `k` steps from `s` go through no fault and end in `t`, and FAULT is still NONE there. -/
def SafeRun (k : Nat) (s t : State) : Prop := Sys2Proof.core.run k s = .next t ∧ t.fault = none

/-- R151: a state in which a command may have ended. A state with FAULT ≠ NONE is never an end. -/
abbrev State.commandEnded (s : State) : Prop :=
  s.status.busy = false ∧ s.status.done = true ∧ s.fault = none

/-- Every listed byte of a buffer lies below its size. -/
abbrev Memory.fits (m : Memory) (n : Nat) : Prop := ∀ c ∈ m, c.1 < n

/-- The invariant: what reset establishes and every step keeps. -/
structure State.Inv (s : State) : Prop where
  /-- R7, R8, R9, R41, R42: the parameters meet their constraints. -/
  params : s.params.wf
  /-- The three buffers are in canonical form. -/
  canonical : s.cbuf.wf ∧ s.mbuf.wf ∧ s.obuf.wf
  /-- R40, R47: no byte stands beyond its buffer's size. -/
  inside : s.cbuf.fits s.params.nMax ∧ s.mbuf.fits s.params.mMax ∧ s.obuf.fits s.params.oMax
  /-- R27, R28, R29: while BUSY = 1, DONE and ERR are 0. -/
  busyClear : s.status.busy = true → s.status.done = false ∧ s.status.err = 0
  /-- R29, R121: codes 7 to 15 are never written. -/
  errCode : s.status.err.toNat ≤ 6
  /-- R28: DONE = 0 with BUSY = 0 means that no command has completed since reset, so no result was written. -/
  fresh : s.status.busy = false → s.status.done = false →
    s.status.err = 0 ∧ s.hdr = 0 ∧ s.rlen = 0 ∧ s.cap = 0 ∧ s.cmdl = 0
  /-- R83: CAP holds a capacity of some carrier that fits CBUF. -/
  capBound : s.cap.toNat ≤ 2 * s.params.nMax
  /-- R33, R9: the message that RLEN measures fits OBUF and is written there. -/
  message : s.rlen.toNat ≤ s.params.oMax ∧ ∀ a < s.rlen.toNat, (s.obuf.read a).isSome = true

/-- FAULT is NONE and the engine moves next. -/
abbrev State.engineMoves (s : State) : Prop := s.fault = none ∧ s.nextTurn = .engine

/-- FAULT is NONE and the host moves next, with `op` the next operation of its program and `rest` those after it. -/
abbrev State.hostMoves (s : State) (op : HostOp) (rest : List HostOp) : Prop :=
  s.fault = none ∧ s.nextTurn = .host ∧ s.prog = op :: rest

/-- R109: the next step is the host's write of `v` to CMD with BUSY = 0, the acceptance of the command word `v`. -/
abbrev State.accepts (s : State) (v : Word) : Prop :=
  s.status.busy = false ∧ ∃ rest, s.hostMoves (.regWrite 0x00 .w32 v) rest

/-- R151: the command accepted in `s` ends in `t`, `k` steps later, the first state after its acceptance with BUSY = 0 and
DONE = 1. -/
structure CommandEnd (s : State) (v : Word) (k : Nat) (t : State) : Prop where
  /-- `s` is the state before the acceptance. -/
  accepted : s.accepts v
  /-- `t` comes after it. -/
  after : 0 < k
  /-- `k` steps lead from `s` to `t`. -/
  run : Sys2Proof.core.run k s = .next t
  /-- BUSY = 0, DONE = 1 and FAULT = NONE. -/
  ended : t.commandEnded
  /-- No state between is one with BUSY = 0 and DONE = 1. -/
  first : ∀ j u, 0 < j → j < k → Sys2Proof.core.run j s = .next u →
    ¬ (u.status.busy = false ∧ u.status.done = true)

/-- R151: the host program of `s` ends in `t`, the state that its last host operation leaves, provided that state has BUSY = 0 and
FAULT = NONE; `k` steps lead from `s` to the state before that operation. A `wait` that reads BUSY = 1 is not over, so its
last read counts. -/
structure ProgramEnd (s : State) (k : Nat) (t : State) : Prop where
  /-- The step to `t` is a turn of the host that performs the last operation of its program. -/
  last : ∃ u op, Sys2Proof.core.run k s = .next u ∧ u.hostMoves op [] ∧ step u = .next t
  /-- That operation is done. -/
  performed : t.prog = []
  /-- A program that leaves BUSY = 1 has not ended. -/
  idle : t.status.busy = false
  /-- A state with FAULT ≠ NONE is never an end. -/
  noFault : t.fault = none

/-- The `n` bytes from index `a` on were written (their written marks are 1, R36). -/
abbrev Memory.writtenIn (m : Memory) (a n : Nat) : Prop := ∀ k < n, (m.read (a + k)).isSome = true

/-- A byte of a buffer; used only where it was written. -/
def Memory.byteAt (m : Memory) (a : Nat) : Byte := (m.read a).getD 0

/-- The message MBUF[0..L) (R31). -/
def State.message (s : State) : List Byte := (List.range s.messageLen).map s.mbuf.byteAt

/-- R72: stream bit `i` of the frame of a message. -/
def frameBit (msg : List Byte) (i : Nat) : Bool :=
  if i < 32 then (8 * msg.length).testBit (31 - i)
  else (msg.getD ((i - 32) / 8) 0).getLsbD (7 - (i - 32) % 8)

/-- R95: the table of the pair pattern. -/
def targetPattern (a b : Bool) : Byte :=
  match a, b with
  | false, false => 0
  | false, true => 4
  | true, false => 8
  | true, true => 12

/-- R81, R95: stream bit `i` that a carrier holds. -/
def streamBit (sch : Scheme) (m : Memory) (i : Nat) : Bool :=
  match sch with
  | .basic => (m.byteAt i).getLsbD 0
  | .enhancedFlip => (m.byteAt (i / 2)).getLsbD (3 - i % 2)
  | .enhancedNoFlip => (m.byteAt (i / 2)).getLsbD (3 - i % 2)

/-- R75: the header that a carrier holds, the sum of 2^(31−i)·h[i]. It is irreducible so that no proof computes
with its weights by accident. -/
@[irreducible] def streamHeader (sch : Scheme) (m : Memory) : Nat :=
  ((List.range 32).map fun i => 2 ^ (31 - i) * (streamBit sch m i).toNat).sum

/-- R76: message byte `k` that a carrier holds, the sum of 2^(7−j)·p[8k+j]. -/
@[irreducible] def streamByte (sch : Scheme) (m : Memory) (k : Nat) : Byte :=
  BitVec.ofNat 8 ((List.range 8).map fun j => 2 ^ (7 - j) * (streamBit sch m (32 + 8 * k + j)).toNat).sum

/-- R90, R98: the largest header that a carrier of `n` bytes can hold. -/
def headerLimit (sch : Scheme) (n : Nat) : Nat :=
  match sch with
  | .basic => n - 32
  | .enhancedFlip => 2 * (n - 16)
  | .enhancedNoFlip => 2 * (n - 16)

/-- R90, R98: the carrier bytes that the payload of a header takes. -/
def payloadBytes (sch : Scheme) (hdr : Nat) : Nat :=
  match sch with
  | .basic => hdr
  | .enhancedFlip => hdr / 2
  | .enhancedNoFlip => hdr / 2

/-- R144: the operands of ENC are in range and written: MBUF[0..L) and CBUF[0..K). -/
abbrev State.encOperands (sch : Scheme) (s : State) : Prop :=
  s.carrierLen ≤ s.params.nMax ∧ s.messageLen ≤ s.params.mMax ∧
  s.mbuf.writtenIn 0 s.messageLen ∧ s.cbuf.writtenIn 0 ((32 + 8 * s.messageLen) / units sch)

/-- An ENC succeeds: its operands are in range and written and the frame fits the carrier (R114). -/
abbrev State.encReady (sch : Scheme) (s : State) : Prop :=
  s.encOperands sch ∧ 32 + 8 * s.messageLen ≤ s.carrierLen * units sch

/-- A DEC reads a whole header: N is in range, the header fits and CBUF[0..HEADER_BYTES) is written. -/
abbrev State.headerReady (sch : Scheme) (s : State) : Prop :=
  s.carrierLen ≤ s.params.nMax ∧ headerBytes sch ≤ s.carrierLen ∧ s.cbuf.writtenIn 0 (headerBytes sch)

/-- A DEC passes its header guard and every carrier byte of its payload is written. -/
abbrev State.payloadReady (sch : Scheme) (s : State) : Prop :=
  s.headerReady sch ∧ streamHeader sch s.cbuf ≤ headerLimit sch s.carrierLen ∧
  s.cbuf.writtenIn (headerBytes sch) (payloadBytes sch (streamHeader sch s.cbuf))

/-- R144: what must be in range and written before a DEC. -/
abbrev State.decOperands (sch : Scheme) (s : State) : Prop :=
  s.carrierLen ≤ s.params.nMax ∧ s.cbuf.writtenIn 0 (headerBytes sch) ∧
  (streamHeader sch s.cbuf ≤ headerLimit sch s.carrierLen →
    s.cbuf.writtenIn (headerBytes sch) (payloadBytes sch (streamHeader sch s.cbuf)))

/-- R144: what the host must have written before a command. -/
def State.bootReady (i : Instr) (s : State) : Prop :=
  match i with
  | .nop => True
  | .encB => s.encOperands .basic
  | .encEf => s.encOperands .enhancedFlip
  | .encEn => s.encOperands .enhancedNoFlip
  | .decB => s.decOperands .basic
  | .decEf => s.decOperands .enhancedFlip
  | .decEn => s.decOperands .enhancedNoFlip
  | .capB => s.carrierLen ≤ s.params.nMax
  | .capEf => s.carrierLen ≤ s.params.nMax
  | .capEn => s.carrierLen ≤ s.params.nMax

/-- R128, items 2 and 3: the code of the first error of an ENC, 0 for none. -/
def encFirstError (sch : Scheme) (s : State) : BitVec 4 :=
  if s.params.nMax < s.carrierLen then 6
  else if s.params.mMax < s.messageLen then 6
  else if s.carrierLen * units sch < 32 + 8 * s.messageLen then 1
  else 0

/-- R128, items 2 and 4: the code of the first error of a DEC, 0 for none. -/
def decFirstError (sch : Scheme) (s : State) : BitVec 4 :=
  if s.params.nMax < s.carrierLen then 6
  else if s.carrierLen < headerBytes sch then 2
  else if headerLimit sch s.carrierLen < streamHeader sch s.cbuf then 2
  else if payloadBytes sch (streamHeader sch s.cbuf) * units sch < streamHeader sch s.cbuf then 3
  else if streamHeader sch s.cbuf % 8 ≠ 0 then 4
  else 0

/-- R128: the code of the first error, in the order of priority, of the command word latched in CMDL. -/
def State.firstError (s : State) : BitVec 4 :=
  match decode s.cmdl with
  | .error _ => 5
  | .ok .nop => 0
  | .ok .encB => encFirstError .basic s
  | .ok .encEf => encFirstError .enhancedFlip s
  | .ok .encEn => encFirstError .enhancedNoFlip s
  | .ok .decB => decFirstError .basic s
  | .ok .decEf => decFirstError .enhancedFlip s
  | .ok .decEn => decFirstError .enhancedNoFlip s
  | .ok .capB => if s.params.nMax < s.carrierLen then 6 else 0
  | .ok .capEf => if s.params.nMax < s.carrierLen then 6 else 0
  | .ok .capEn => if s.params.nMax < s.carrierLen then 6 else 0

/-- R39: two states have the same operands: the lengths and the bytes of CBUF[0..N) and MBUF[0..L). -/
structure SameOperands (s s' : State) : Prop where
  params : s.params = s'.params
  clen : s.clen = s'.clen
  mlen : s.mlen = s'.mlen
  carrier : ∀ a < s.carrierLen, s.cbuf.read a = s'.cbuf.read a
  message : ∀ a < s.messageLen, s.mbuf.read a = s'.mbuf.read a

/-- Two runs wrote the same thing at one place: both left it as it was, or both hold the same value. -/
abbrev SameWrite {α : Type} (old new old' new' : α) : Prop := (new = old ∧ new' = old') ∨ new = new'

end Sys2Proof.Machine
end

