-- ==== Sys2Proof/Certificates/Slice0/Obligations.lean ====
section
/-!
DEFINITION. The statements for the provers, from the numbered rules of spec/.
-/

open Sys2Proof Sys2Proof.Machine

/-- The words of the opcode map (R67), written out: each decodes to its command, has its fields and is the command's
encoding, and the command has its mnemonic (R70). -/
def Obligations.TableWordsDecode : Prop :=
  ∀ row ∈ ([(0x00000000, 0, 0, "NOP", .nop), (0x00000001, 1, 0, "ENC.B", .encB),
      (0x00000011, 1, 1, "ENC.EF", .encEf), (0x00000021, 1, 2, "ENC.EN", .encEn),
      (0x00000002, 2, 0, "DEC.B", .decB), (0x00000012, 2, 1, "DEC.EF", .decEf),
      (0x00000022, 2, 2, "DEC.EN", .decEn), (0x00000003, 3, 0, "CAP.B", .capB),
      (0x00000013, 3, 1, "CAP.EF", .capEf), (0x00000023, 3, 2, "CAP.EN", .capEn)] :
      List (Word × BitVec 4 × BitVec 2 × String × Instr)),
    decode row.1 = .ok row.2.2.2.2 ∧ encode row.2.2.2.2 = row.1 ∧
    fieldsOf row.1 = ⟨row.2.1, row.2.2.1, 0⟩ ∧ row.2.2.2.2.mnemonic = row.2.2.2.1

/-- Decoding and encoding agree, both ways: the words that decode to a command are exactly its encoding (R67, R68). -/
def Obligations.DecodeGivesInstrIffWordIsItsEncoding : Prop :=
  ∀ (w : Word) (i : Instr), decode w = .ok i ↔ w = encode i

/-- R68: Decode on every 32-bit word, by the value of its fields; a rejected word is rejected by the name of its kind
(R69). -/
def Obligations.DecodeByFieldValues : Prop :=
  ∀ (w : Word) (op sch rsv : Nat), op = w.toNat % 16 → sch = w.toNat / 16 % 4 → rsv = w.toNat / 64 →
    (rsv ≠ 0 → decode w = .error .reservedBits) ∧
    (rsv = 0 → op = 0 → sch = 0 → decode w = .ok .nop) ∧
    (rsv = 0 → op = 0 → sch ≠ 0 → decode w = .error .nopWithScheme) ∧
    (rsv = 0 → 3 < op → decode w = .error .reservedOp) ∧
    (rsv = 0 → op ≠ 0 → op ≤ 3 → sch = 3 → decode w = .error .reservedScheme) ∧
    (∀ x, rsv = 0 → sch < 3 → [Scheme.basic, .enhancedFlip, .enhancedNoFlip][sch]? = some x →
      (op = 1 → decode w = .ok (encOf x)) ∧ (op = 2 → decode w = .ok (decOf x)) ∧
      (op = 3 → decode w = .ok (capOf x)))

/-- R70: every mnemonic assembles to its command, and `cmd M` to one write of M's word to CMD (R71). -/
def Obligations.MnemonicAssemblesToItsWord : Prop :=
  ∀ i : Instr, parseMnemonic i.mnemonic.toList = some i ∧
    assembleLine ("cmd ".toList ++ i.mnemonic.toList) = some [.regWrite 0x00 .w32 (encode i)]

/-- R140: the state after reset, for every choice of the parameters. Every register and CMDL is 0, no buffer byte is written, and
FAULT is NONE. -/
def Obligations.ResetStateHoldsSpecValues : Prop :=
  ∀ p : Params, (∀ r : Reg, (State.resetWith p).regValue r = 0) ∧ (State.resetWith p).status = ⟨false, false, 0⟩ ∧
    (State.resetWith p).cmdl = 0 ∧ (State.resetWith p).fault = none ∧
    ∀ (b : Buf) (a : Nat), ((State.resetWith p).buf b).read a = none

/-- R140, R142: reset may be asserted at any time and discards a latched command. That it is a turn, and which fields are not the
engine's and stay, is the model's choice (log 6). -/
def Obligations.ResetTurnDiscardsTheCommand : Prop :=
  ∀ s : State, s.fault = none → s.nextTurn = .reset →
    step s = .next (⟨s.params, ⟨false, false, 0⟩, 0, 0, 0, 0, 0, 0, [], [], [], none, s.prog, s.replies,
      s.turns.tail⟩ : State)

/-- R43: HostRegRead. Each register is read at its offset, CMD reads 0, a read has no side effect, and while BUSY = 1 only
STATUS may be read. Where MISALIGNED or RESERVED_OFFSET applies too while BUSY = 1, that HAZARD_BUSY is named is the model's choice
(log 7); so is that the value read goes to `replies` (log 14) and a faulting operation stays in `prog` (log 8). -/
def Obligations.HostRegisterReads : Prop :=
  ∀ (s : State) (o : Fin 64) (rest : List HostOp), s.hostMoves (.regRead o .w32) rest →
    (∀ v : Word, (s.status.busy = false ∨ o = 0x04) →
      (o, v) ∈ ([(0x00, 0), (0x04, s.status.word), (0x08, s.clen), (0x0C, s.mlen), (0x10, s.hdr), (0x14, s.rlen),
        (0x18, s.cap)] : List (Fin 64 × Word)) →
      step s = .next { s with turns := s.turns.tail, prog := rest, replies := s.replies ++ [.word v] }) ∧
    (s.status.busy = true → o ≠ 0x04 →
      step s = .next { s with turns := s.turns.tail, fault := some .hazardBusy })

/-- R44, R109: HostRegWrite. A CMD write accepts any word with no check, CLEN and MLEN store every bit, a write to a read-only
register is ignored, and any write while BUSY = 1 is a hazard. Where MISALIGNED or RESERVED_OFFSET applies too, that HAZARD_BUSY
is named is the model's choice (log 7); so is that a faulting operation stays in `prog` (log 8). -/
def Obligations.HostRegisterWrites : Prop :=
  ∀ (s : State) (o : Fin 64) (v : Word) (rest : List HostOp), s.hostMoves (.regWrite o .w32 v) rest →
    (s.status.busy = false →
      (o = 0x00 → step s = .next { s with turns := s.turns.tail, prog := rest, cmdl := v, status := ⟨true, false, 0⟩ }) ∧
      (o = 0x08 → step s = .next { s with turns := s.turns.tail, prog := rest, clen := v }) ∧
      (o = 0x0C → step s = .next { s with turns := s.turns.tail, prog := rest, mlen := v }) ∧
      (o = 0x04 ∨ o = 0x10 ∨ o = 0x14 ∨ o = 0x18 → step s = .next { s with turns := s.turns.tail, prog := rest })) ∧
    (s.status.busy = true → step s = .next { s with turns := s.turns.tail, fault := some .hazardBusy })

/-- R45, R46: a register access of another width or at an offset not a multiple of 4 raises MISALIGNED, an aligned one at 0x1C
to 0x3F RESERVED_OFFSET. That MISALIGNED comes first where both apply, and HAZARD_BUSY before either while BUSY = 1, is the
model's choice (log 7); so is that the faulting operation stays in `prog` and nothing but FAULT and the turn list changes (log 8). -/
def Obligations.BadRegisterAccessFaults : Prop :=
  ∀ (s : State) (op : HostOp) (o : Fin 64) (width : Width) (rest : List HostOp), s.hostMoves op rest →
    (op = .regRead o width ∨ ∃ v, op = .regWrite o width v) →
    (s.status.busy = false → width ≠ .w32 ∨ o.val % 4 ≠ 0 →
      step s = .next { s with turns := s.turns.tail, fault := some .misaligned }) ∧
    (s.status.busy = false → width = .w32 → o.val % 4 = 0 → 0x1C ≤ o.val →
      step s = .next { s with turns := s.turns.tail, fault := some .reservedOffset }) ∧
    (s.status.busy = true → width ≠ .w32 ∨ o.val % 4 ≠ 0 ∨ 0x1C ≤ o.val →
      step s = .next { s with turns := s.turns.tail, fault := some .hazardBusy })

/-- R47: HostBufRead and HostBufWrite, with the range, the written marks, the hazard, and every other byte unchanged. Where
two model faults apply, that HAZARD_BUSY comes before OUT_OF_RANGE and UNINIT_READ, and OUT_OF_RANGE before UNINIT_READ, is the
model's choice (log 7); so are the record of replies (log 14) and that a faulting operation stays in `prog` (log 8). -/
def Obligations.HostBufferAccess : Prop :=
  (∀ (s : State) (b : Buf) (a : Nat) (rest : List HostOp), s.hostMoves (.bufRead b a) rest →
    (s.status.busy = true → step s = .next { s with turns := s.turns.tail, fault := some .hazardBusy }) ∧
    (s.status.busy = false → bufSize s.params b ≤ a →
      step s = .next { s with turns := s.turns.tail, fault := some .outOfRange }) ∧
    (s.status.busy = false → a < bufSize s.params b → (s.buf b).read a = none →
      step s = .next { s with turns := s.turns.tail, fault := some .uninitRead }) ∧
    (∀ v, s.status.busy = false → a < bufSize s.params b → (s.buf b).read a = some v →
      step s = .next { s with turns := s.turns.tail, prog := rest, replies := s.replies ++ [.byte v] })) ∧
  (∀ (s : State) (b : Buf) (a : Nat) (v : Byte) (rest : List HostOp), s.hostMoves (.bufWrite b a v) rest →
    (s.status.busy = true → step s = .next { s with turns := s.turns.tail, fault := some .hazardBusy }) ∧
    (s.status.busy = false → bufSize s.params b ≤ a →
      step s = .next { s with turns := s.turns.tail, fault := some .outOfRange }) ∧
    (s.status.busy = false → a < bufSize s.params b →
      ∃ t, step s = .next t ∧ (t.buf b).read a = some v ∧
        (∀ (c : Buf) (x : Nat), c ≠ b ∨ x ≠ a → (t.buf c).read x = (s.buf c).read x) ∧
        t = { s with turns := s.turns.tail, prog := rest, cbuf := t.cbuf, mbuf := t.mbuf, obuf := t.obuf }))

/-- R146: while BUSY = 1 the host may read STATUS and nothing else. Where MISALIGNED, RESERVED_OFFSET, OUT_OF_RANGE or
UNINIT_READ applies too, that HAZARD_BUSY is named is the model's choice (log 7); so are the record of the value read in `replies`
(log 14) and that a faulting operation stays in `prog` and nothing but FAULT and the turn list changes (log 8). (`wait` is such reads; a read of STATUS in another
width is `BadRegisterAccessFaults`.) -/
def Obligations.BusyHostMayOnlyReadStatus : Prop :=
  ∀ (s : State) (op : HostOp) (rest : List HostOp), s.hostMoves op rest → s.status.busy = true →
    (op = .regRead 0x04 .w32 →
      step s = .next { s with turns := s.turns.tail, prog := rest, replies := s.replies ++ [.word s.status.word] }) ∧
    ((∀ width, op ≠ .regRead 0x04 width) → op ≠ .wait →
      step s = .next { s with turns := s.turns.tail, fault := some .hazardBusy })

/-- R71: `wait` reads STATUS until BUSY reads 0. That each read is one turn and is recorded is the model's choice (log 14). -/
def Obligations.WaitReadsStatusUntilIdle : Prop :=
  ∀ (s : State) (rest : List HostOp), s.hostMoves .wait rest →
    (s.status.busy = true →
      step s = .next { s with turns := s.turns.tail, replies := s.replies ++ [.word s.status.word] }) ∧
    (s.status.busy = false →
      step s = .next { s with turns := s.turns.tail, prog := rest, replies := s.replies ++ [.word s.status.word] })

/-- R26: STATUS as the host reads it. BUSY is bit 0, DONE bit 1, ERR bits 7:4, and every other bit reads 0. -/
def Obligations.StatusWordLayout : Prop :=
  ∀ (st : Status) (i : Nat), st.word.getLsbD i =
    if i = 0 then st.busy else if i = 1 then st.done
    else if 4 ≤ i ∧ i < 8 then st.err.getLsbD (i - 4) else false

/-- R110, R111: the engine step runs the command that CMDL decodes to, and taking the turn is all the step adds. The second
clause is about the model's own `withFetchWord` (log 12), which no step calls: it stands for one acceptance, clears FAULT, which no
step does (R37), and the next step runs the word it was given. -/
def Obligations.StepRunsTheLatchedCommand : Prop :=
  ∀ (s : State) (i : Instr),
    (s.engineMoves → s.status.busy = true → decode s.cmdl = .ok i →
      step s = exec i { s with turns := s.turns.tail }) ∧
    step (s.withFetchWord 32 (encode i).toNat) =
      exec i { s with cmdl := encode i, status := ⟨true, false, 0⟩, fault := none }

/-- R112, R126: a reserved word completes with ILLEGAL_COMMAND (5) and nothing but STATUS is written. -/
def Obligations.ReservedWordEndsIllegalCommand : Prop :=
  ∀ s : State, s.engineMoves → s.status.busy = true → (∀ i, decode s.cmdl ≠ .ok i) →
    step s = .next { s with turns := s.turns.tail, status := ⟨false, true, 5⟩ }

/-- R110: the engine step of every latched word completes it in one step, with BUSY 0, DONE 1 and a code of R121, or sets
FAULT to UNINIT_READ and writes nothing else. An engine that is not enabled does nothing (log 5). -/
def Obligations.EngineStepCompletesOrFaults : Prop :=
  ∀ s : State, s.engineMoves →
    (s.status.busy = true → ∃ t, step s = .next t ∧
      ((t.fault = none ∧ t.status.busy = false ∧ t.status.done = true ∧ t.status.err.toNat ≤ 6) ∨
        t = { s with turns := s.turns.tail, fault := some .uninitRead })) ∧
    (s.status.busy = false → step s = .next { s with turns := s.turns.tail })

/-- R37: FAULT is NONE at reset, and a state with FAULT ≠ NONE has no further step and never loses it. -/
def Obligations.FaultStopsTheMachine : Prop :=
  State.reset.fault = none ∧
  (∀ (s : State) (r : Fault), s.fault = some r → step s = .fault r ∧ ∀ k, Sys2Proof.core.run (k + 1) s = .fault r) ∧
  ∀ s t : State, step s = .next t → s.fault = none

/-- R119: NOP completes with OK, reads neither length, writes nothing but STATUS, and is the word 0 alone of those with OP = 0. -/
def Obligations.NopCompletes : Prop :=
  (∀ s : State, exec .nop s = .next { s with status := ⟨false, true, 0⟩ }) ∧
  encode .nop = 0x00000000 ∧
  ∀ w : Word, w.toNat % 16 = 0 → w ≠ 0 → ∀ i, decode w ≠ .ok i

/-- R85, R86, R87: the capacity queries write N or 2·N to CAP with no truncation, complete with OK, read no buffer, and end with
RANGE when N > N_MAX, CAP then unchanged. -/
def Obligations.CapacityQueries : Prop :=
  encode .capB = 0x00000003 ∧ encode .capEf = 0x00000013 ∧ encode .capEn = 0x00000023 ∧
  ∀ s : State,
    (s.params.sizesOk → s.carrierLen ≤ s.params.nMax → ∃ t u v,
      exec .capB s = .next t ∧ t = { s with status := ⟨false, true, 0⟩, cap := t.cap } ∧ t.cap.toNat = s.clen.toNat ∧
      exec .capEf s = .next u ∧ u = { s with status := ⟨false, true, 0⟩, cap := u.cap } ∧ u.cap.toNat = 2 * s.clen.toNat ∧
      exec .capEn s = .next v ∧ v = { s with status := ⟨false, true, 0⟩, cap := v.cap } ∧ v.cap.toNat = 2 * s.clen.toNat) ∧
    (s.params.nMax < s.carrierLen →
      exec .capB s = .next { s with status := ⟨false, true, 6⟩ } ∧
      exec .capEf s = .next { s with status := ⟨false, true, 6⟩ } ∧
      exec .capEn s = .next { s with status := ⟨false, true, 6⟩ })

/-- R113: ENC, DEC and CAP end with RANGE (6) if CLEN > N_MAX, and ENC also if MLEN > M_MAX; nothing but STATUS is written. -/
def Obligations.LengthBeyondBufferEndsRange : Prop :=
  ∀ (s : State) (sch : Scheme),
    (s.params.nMax < s.clen.toNat →
      exec (encOf sch) s = .next { s with status := ⟨false, true, 6⟩ } ∧
      exec (decOf sch) s = .next { s with status := ⟨false, true, 6⟩ } ∧
      exec (capOf sch) s = .next { s with status := ⟨false, true, 6⟩ }) ∧
    (s.params.mMax < s.mlen.toNat → exec (encOf sch) s = .next { s with status := ⟨false, true, 6⟩ })

/-- R114, R122: ENC ends with CAPACITY (1) if 32 + 8·L > N·UNITS, in exact arithmetic, before any buffer is read or written. -/
def Obligations.FrameBeyondCarrierEndsCapacity : Prop :=
  ∀ (s : State) (sch : Scheme), s.clen.toNat ≤ s.params.nMax → s.mlen.toNat ≤ s.params.mMax →
    s.clen.toNat * units sch < 32 + 8 * s.mlen.toNat →
    exec (encOf sch) s = .next { s with status := ⟨false, true, 1⟩ }

/-- R88: a successful ENC.B puts stream bit i into bit 0 of carrier byte i, leaves bits 1 to 7 and every byte from the frame's end
on, and writes nothing but STATUS beside. -/
def Obligations.EncBWritesTheFrame : Prop :=
  ∀ s : State, s.encReady .basic → ∃ t, exec .encB s = .next t ∧
    t = { s with status := ⟨false, true, 0⟩, cbuf := t.cbuf } ∧
    (∀ i < 32 + 8 * s.messageLen, t.cbuf.read i =
      some ((s.cbuf.byteAt i &&& 0xFE) ||| if frameBit s.message i then 1 else 0)) ∧
    ∀ i, 32 + 8 * s.messageLen ≤ i → t.cbuf.read i = s.cbuf.read i

/-- R96: a successful ENC.EN puts stream bits 2k and 2k + 1 into bits 3 and 2 of carrier byte k, leaves its other bits and every byte
from the frame's end on, and writes nothing but STATUS beside. -/
def Obligations.EncEnWritesTheFrame : Prop :=
  ∀ s : State, s.encReady .enhancedNoFlip → ∃ t, exec .encEn s = .next t ∧
    t = { s with status := ⟨false, true, 0⟩, cbuf := t.cbuf } ∧
    (∀ k < (32 + 8 * s.messageLen) / 2, t.cbuf.read k =
      some ((s.cbuf.byteAt k &&& 0xF3) |||
        targetPattern (frameBit s.message (2 * k)) (frameBit s.message (2 * k + 1)))) ∧
    ∀ k, (32 + 8 * s.messageLen) / 2 ≤ k → t.cbuf.read k = s.cbuf.read k

/-- R102: a successful ENC.EF flips bits 0 and 1 of carrier byte k unless its bits 2 and 3 hold the target pattern already, then writes
the pattern there, leaves bits 4 to 7 and every byte from the frame's end on, and writes nothing but STATUS beside. -/
def Obligations.EncEfWritesTheFrame : Prop :=
  ∀ s : State, s.encReady .enhancedFlip → ∃ t, exec .encEf s = .next t ∧
    t = { s with status := ⟨false, true, 0⟩, cbuf := t.cbuf } ∧
    (∀ k < (32 + 8 * s.messageLen) / 2, ∀ (v target : Byte), v = s.cbuf.byteAt k →
      target = targetPattern (frameBit s.message (2 * k)) (frameBit s.message (2 * k + 1)) →
      t.cbuf.read k = some (((if v &&& 0x0C ≠ target then v ^^^ 0x03 else v) &&& 0xF3) ||| target)) ∧
    ∀ k, (32 + 8 * s.messageLen) / 2 ≤ k → t.cbuf.read k = s.cbuf.read k

/-- R104: for every byte ENC.EF writes, bits 0 and 1 are inverted exactly when bits 2 and 3 change, and bits 2 to 7 are those ENC.EN
gives. -/
def Obligations.FlipExactlyWhenTheUnitChanges : Prop :=
  ∀ s : State, s.encReady .enhancedFlip → ∃ t u, exec .encEf s = .next t ∧ exec .encEn s = .next u ∧
    ∀ k < (32 + 8 * s.messageLen) / 2, ∃ v x y,
      s.cbuf.read k = some v ∧ t.cbuf.read k = some x ∧ u.cbuf.read k = some y ∧
      x &&& 0xFC = y &&& 0xFC ∧
      x &&& 0x03 = if x &&& 0x0C = v &&& 0x0C then v &&& 0x03 else (v &&& 0x03) ^^^ 0x03

/-- R49, R50, R82: whatever an ENC comes to, it changes nothing but STATUS, FAULT and carrier bytes inside the frame, of those only
the unit bits (for EnhancedFlip also bits 0 and 1), and marks no byte as written. -/
def Obligations.EncodeFrame : Prop :=
  ∀ (s t : State) (sch : Scheme) (keep : Byte),
    (sch, keep) ∈ ([(.basic, 0xFE), (.enhancedFlip, 0xF0), (.enhancedNoFlip, 0xF3)] : List (Scheme × Byte)) →
    exec (encOf sch) s = .next t →
    t = { s with status := t.status, cbuf := t.cbuf, fault := t.fault } ∧
    (∀ a, (32 + 8 * s.messageLen) / units sch ≤ a → t.cbuf.read a = s.cbuf.read a) ∧
    ∀ a, (t.cbuf.read a).map (fun v => v &&& keep) = (s.cbuf.read a).map fun v => v &&& keep

/-- R90, R94: a DEC.B whose header is a multiple of 8 within N − 32 writes HDR, RLEN and the message from OBUF[0] on, leaves the rest of
OBUF, and writes nothing but STATUS beside. -/
def Obligations.DecBDeliversTheMessage : Prop :=
  ∀ (s : State) (hdr : Nat), hdr = streamHeader .basic s.cbuf → s.payloadReady .basic → hdr % 8 = 0 →
    ∃ t, exec .decB s = .next t ∧
      t = { s with status := ⟨false, true, 0⟩, hdr := t.hdr, rlen := t.rlen, obuf := t.obuf } ∧
      t.hdr.toNat = hdr ∧ t.rlen.toNat = hdr / 8 ∧
      (∀ k < hdr / 8, t.obuf.read k = some (streamByte .basic s.cbuf k)) ∧
      ∀ k, hdr / 8 ≤ k → t.obuf.read k = s.obuf.read k

/-- R98, R101, R105, R108: the same for DEC.EN and DEC.EF, whose extractor is one, with the header within 2·(N − 16). -/
def Obligations.DecEnhancedDeliversTheMessage : Prop :=
  ∀ (s : State) (hdr : Nat), hdr = streamHeader .enhancedNoFlip s.cbuf → s.payloadReady .enhancedNoFlip → hdr % 8 = 0 →
    ∃ t, exec .decEn s = .next t ∧ exec .decEf s = .next t ∧
      t = { s with status := ⟨false, true, 0⟩, hdr := t.hdr, rlen := t.rlen, obuf := t.obuf } ∧
      t.hdr.toNat = hdr ∧ t.rlen.toNat = hdr / 8 ∧
      (∀ k < hdr / 8, t.obuf.read k = some (streamByte .enhancedNoFlip s.cbuf k)) ∧
      ∀ k, hdr / 8 ≤ k → t.obuf.read k = s.obuf.read k

/-- R123, R124, R125 with R90, R98, R99: how a DEC fails. A carrier shorter than its header ends with INVALID_HEADER and HDR unchanged; a
header beyond the limit with INVALID_HEADER; an odd header of an enhanced scheme with TRUNCATED; any other header that is no multiple of
8 with NOT_BYTE_ALIGNED; in the last three HDR holds the header. Nothing else but STATUS is written. -/
def Obligations.DecodeFailures : Prop :=
  ∀ (s : State) (sch : Scheme) (hdr : Nat), hdr = streamHeader sch s.cbuf → s.carrierLen ≤ s.params.nMax →
    (s.carrierLen < headerBytes sch → exec (decOf sch) s = .next { s with status := ⟨false, true, 2⟩ }) ∧
    (s.headerReady sch → headerLimit sch s.carrierLen < hdr →
      exec (decOf sch) s = .next { s with status := ⟨false, true, 2⟩, hdr := BitVec.ofNat 32 hdr }) ∧
    (s.payloadReady sch → sch ≠ .basic → hdr % 2 = 1 →
      exec (decOf sch) s = .next { s with status := ⟨false, true, 3⟩, hdr := BitVec.ofNat 32 hdr }) ∧
    (s.payloadReady sch → sch = .basic ∨ hdr % 2 = 0 → hdr % 8 ≠ 0 →
      exec (decOf sch) s = .next { s with status := ⟨false, true, 4⟩, hdr := BitVec.ofNat 32 hdr })

/-- R49, R117: whatever a DEC comes to, it changes nothing but STATUS, FAULT, HDR, RLEN and OBUF, of OBUF only the bytes of the message
that the header in CBUF counts, and on an error or a fault neither RLEN nor OBUF. -/
def Obligations.DecodeFrame : Prop :=
  ∀ (s t : State) (sch : Scheme), exec (decOf sch) s = .next t →
    t = { s with status := t.status, hdr := t.hdr, rlen := t.rlen, obuf := t.obuf, fault := t.fault } ∧
    (∀ a, streamHeader sch s.cbuf / 8 ≤ a → t.obuf.read a = s.obuf.read a) ∧
    (t.status.err ≠ 0 ∨ t.fault ≠ s.fault → t.rlen = s.rlen ∧ t.obuf = s.obuf)

/-- R105, R106: DEC.EF and DEC.EN read only bits 2 and 3. On two carriers that differ in other bits alone, and under either command,
everything but the carrier comes out the same. -/
def Obligations.OnlyUnitBitsMatterToEnhancedDecode : Prop :=
  ∀ (s : State) (m : Memory) (i j : Instr),
    (∀ a, (m.read a).map (fun v => v &&& 0x0C) = (s.cbuf.read a).map fun v => v &&& 0x0C) →
    (i = .decEf ∨ i = .decEn) → (j = .decEf ∨ j = .decEn) →
    ∃ t, exec i s = .next t ∧ exec j { s with cbuf := m } = .next { t with cbuf := m }

/-- R36, R139: when every check before it has passed, a read of a byte never written sets FAULT to UNINIT_READ and the command writes
nothing else: for ENC a byte of MBUF[0..L) or CBUF[0..K), for DEC one of the header or, when the guard passes, of the payload. -/
def Obligations.UnwrittenOperandSetsFault : Prop :=
  ∀ (s : State) (sch : Scheme), s.carrierLen ≤ s.params.nMax →
    (s.messageLen ≤ s.params.mMax → 32 + 8 * s.messageLen ≤ s.carrierLen * units sch →
      (¬ s.mbuf.writtenIn 0 s.messageLen ∨ ¬ s.cbuf.writtenIn 0 ((32 + 8 * s.messageLen) / units sch)) →
      exec (encOf sch) s = .next { s with fault := some .uninitRead }) ∧
    (headerBytes sch ≤ s.carrierLen → ¬ s.cbuf.writtenIn 0 (headerBytes sch) →
      exec (decOf sch) s = .next { s with fault := some .uninitRead }) ∧
    (s.headerReady sch → streamHeader sch s.cbuf ≤ headerLimit sch s.carrierLen →
      ¬ s.cbuf.writtenIn (headerBytes sch) (payloadBytes sch (streamHeader sch s.cbuf)) →
      exec (decOf sch) s = .next { s with fault := some .uninitRead })

/-- R144: a command before which the host has written what it reads completes, with no model fault. -/
def Obligations.BootedCommandCompletes : Prop :=
  ∀ (s : State) (i : Instr), s.bootReady i →
    ∃ t, exec i s = .next t ∧ t.fault = s.fault ∧ t.status.busy = false ∧ t.status.done = true

/-- R128: a command that completes reports the first error in the order of priority, and OK if none applies. -/
def Obligations.FirstErrorIsReported : Prop :=
  ∀ s t : State, s.engineMoves → s.status.busy = true → step s = .next t → t.fault = none →
    t.status = ⟨false, true, s.firstError⟩

/-- R115, R129: an engine step that ends with an error or a model fault changes nothing but STATUS, FAULT and HDR: no byte of any
buffer. -/
def Obligations.FailedCommandWritesNoBuffer : Prop :=
  ∀ s t : State, s.engineMoves → s.status.busy = true → step s = .next t →
    (t.fault ≠ none ∨ t.status.err ≠ 0) →
    t = { s with turns := s.turns.tail, status := t.status, hdr := t.hdr, fault := t.fault }

/-- R72: the frame of a message, bit by bit. -/
def Obligations.FrameBits : Prop :=
  ∀ msg : List Byte, msg.length ≤ 2 ^ 29 - 1 →
    (frame msg).length = 32 + 8 * msg.length ∧
    (∀ i < 32, (frame msg)[i]? = some ((BitVec.ofNat 32 (8 * msg.length)).getLsbD (31 - i))) ∧
    ∀ k < msg.length, ∀ j < 8, (frame msg)[32 + 8 * k + j]? = msg[k]?.map fun v => v.getLsbD (7 - j)

/-- R76, R77: Parse on any bits. Truncated is checked first, then NotByteAligned; byte k is the sum of 2^(7−j)·p[8k+j]. -/
def Obligations.ParseChecksAndBytes : Prop :=
  ∀ (hdr : Nat) (p : BitString),
    (p.length < hdr → parse hdr p = .error .truncated) ∧
    (hdr ≤ p.length → hdr % 8 ≠ 0 → parse hdr p = .error .notByteAligned) ∧
    (hdr ≤ p.length → hdr % 8 = 0 → ∃ out, parse hdr p = .ok out ∧ out.length = hdr / 8 ∧
      ∀ k < hdr / 8, out[k]? = some (BitVec.ofNat 8
        ((List.range 8).map fun j => 2 ^ (7 - j) * (p.getD (8 * k + j) false).toNat).sum))

/-- R79: framing and parsing agree for every message. -/
def Obligations.FramerRoundTrip : Prop :=
  ∀ msg : List Byte, msg.length ≤ 2 ^ 29 - 1 →
    headerValue ((frame msg).take 32) = 8 * msg.length ∧
    parse (8 * msg.length) ((frame msg).drop 32) = .ok msg

/-- R92: after a successful ENC.B, bits 0 of CBUF[0..32) read in order give 8·L. -/
def Obligations.EncBHeaderReadsBack : Prop :=
  ∀ s t : State, s.params.sizesOk → s.encReady .basic → exec .encB s = .next t →
    streamHeader .basic t.cbuf = 8 * s.mlen.toNat

/-- R120: for every scheme, ENC and then DEC, in any later state with the same carrier, CLEN and parameters, delivers the message. -/
def Obligations.EncodeThenDecodeRoundTrip : Prop :=
  ∀ (s : State) (sch : Scheme), s.params.sizesOk → s.encReady sch →
    ∃ t, exec (encOf sch) s = .next t ∧ t.status = ⟨false, true, 0⟩ ∧ t.fault = s.fault ∧
      ∀ t' : State, t'.params = t.params → t'.clen = t.clen → t'.cbuf = t.cbuf →
        ∃ u, exec (decOf sch) t' = .next u ∧ u.status = ⟨false, true, 0⟩ ∧ u.fault = t'.fault ∧
          (∀ k < s.mlen.toNat, u.obuf.read k = s.mbuf.read k) ∧
          u.rlen = s.mlen ∧ u.hdr.toNat = 8 * s.mlen.toNat

/-- R39: the effect of a command is a function of CLEN, MLEN, CBUF[0..N) and MBUF[0..L) alone: two states that agree there, whatever
their results, OBUF, STATUS and history, come to the same error, fault, carrier and results. -/
def Obligations.EffectDependsOnlyOnOperands : Prop :=
  ∀ (s s' : State) (i : Instr), SameOperands s s' → s.fault = none → s'.fault = none →
    ∃ t t', exec i s = .next t ∧ exec i s' = .next t' ∧
      t.fault = t'.fault ∧ (t.fault = none → t.status = t'.status) ∧
      (∀ a < s.carrierLen, t.cbuf.read a = t'.cbuf.read a) ∧
      SameWrite s.hdr t.hdr s'.hdr t'.hdr ∧ SameWrite s.rlen t.rlen s'.rlen t'.rlen ∧
      SameWrite s.cap t.cap s'.cap t'.cap ∧
      ∀ a, SameWrite (s.obuf.read a) (t.obuf.read a) (s'.obuf.read a) (t'.obuf.read a)

/-- R27, R28, R29: STATUS is written by command acceptance, by command completion and by reset, and by nothing else. -/
def Obligations.StatusWrittenOnlyByAcceptanceAndCompletion : Prop :=
  ∀ s t : State, step s = .next t → t.status ≠ s.status →
    (∃ v rest, s.hostMoves (.regWrite 0x00 .w32 v) rest ∧ s.status.busy = false ∧
      t.status = ⟨true, false, 0⟩ ∧ t.cmdl = v) ∨
    (s.engineMoves ∧ s.status.busy = true ∧ t.status.busy = false ∧ t.status.done = true ∧ t.status.err.toNat ≤ 6) ∨
    (s.nextTurn = .reset ∧ t.status = ⟨false, false, 0⟩)

/-- R30 to R35: outside reset, CLEN, MLEN and CMDL are written by the host's register writes alone and MBUF by its buffer writes; HDR and
RLEN by DEC, CAP by CAP, RLEN and CAP only when it succeeds. -/
def Obligations.EachRegisterHasItsWriter : Prop :=
  ∀ s t : State, step s = .next t → s.nextTurn ≠ .reset →
    (t.clen ≠ s.clen → ∃ rest, s.hostMoves (.regWrite 0x08 .w32 t.clen) rest) ∧
    (t.mlen ≠ s.mlen → ∃ rest, s.hostMoves (.regWrite 0x0C .w32 t.mlen) rest) ∧
    (t.cmdl ≠ s.cmdl → ∃ rest, s.hostMoves (.regWrite 0x00 .w32 t.cmdl) rest) ∧
    (t.mbuf ≠ s.mbuf → ∃ a v rest, s.hostMoves (.bufWrite .mbuf a v) rest) ∧
    (t.hdr ≠ s.hdr → s.engineMoves ∧ ∃ sch, decode s.cmdl = .ok (decOf sch)) ∧
    (t.rlen ≠ s.rlen → s.engineMoves ∧ t.status.err = 0 ∧ ∃ sch, decode s.cmdl = .ok (decOf sch)) ∧
    (t.cap ≠ s.cap → s.engineMoves ∧ t.status.err = 0 ∧ ∃ sch, decode s.cmdl = .ok (capOf sch)) ∧
    t.params = s.params

/-- R41, R42: with windows that do not overlap, the bus address of every register offset and of every byte of a buffer leads back to
it. -/
def Obligations.BusAddressLeadsBackToItsTarget : Prop :=
  ∀ p : Params, p.placementOk →
    (∀ o : Fin 64, busTarget p (p.regBase + o.val) = some (.reg o)) ∧
    (∀ a < p.nMax, busTarget p (p.cbufBase + a) = some (.byte .cbuf a)) ∧
    (∀ a < p.mMax, busTarget p (p.mbufBase + a) = some (.byte .mbuf a)) ∧
    (∀ a < p.oMax, busTarget p (p.obufBase + a) = some (.byte .obuf a))

/-- R138, R143: an idle engine whose host has nothing left to do keeps all its state. That such a turn is a step at all is the model's
choice (log 5). -/
def Obligations.IdleMachineKeepsItsState : Prop :=
  ∀ s : State, s.fault = none → s.status.busy = false → s.prog = [] → s.nextTurn ≠ .reset →
    step s = .next { s with turns := s.turns.tail }

/-- R150: an engine step that is enabled is eventually taken. While the host only reads STATUS and no reset is asserted, BUSY becomes 0,
or the command meets a byte never written, after at most one step more than the turns still planned. The bound is the
model's (log 4). -/
def Obligations.EnabledEngineIsEventuallyTaken : Prop :=
  ∀ s : State, s.fault = none → s.status.busy = true → (∀ x ∈ s.turns, x ≠ .reset) →
    (∀ op ∈ s.prog, op = .wait ∨ op = .regRead 0x04 .w32) →
    ∃ k ≤ s.turns.length + 1, ∃ t, Sys2Proof.core.run k s = .next t ∧
      (t.commandEnded ∨ t.fault = some .uninitRead)

/-- Every step keeps the invariant (`State.Inv`): legal parameters, buffers in canonical form and inside their sizes, legal STATUS, CAP and
RLEN within their bounds, and the delivered message written. -/
def Obligations.StepKeepsTheInvariant : Prop :=
  ∀ s t : State, s.Inv → step s = .next t → t.Inv

/-- The state after reset meets the invariant, for the parameters of log 1 and for all that meet the constraints. -/
def Obligations.ResetMeetsTheInvariant : Prop :=
  State.reset.Inv ∧ ∀ p : Params, p.wf → (State.resetWith p).Inv

/-- R151: where a command ends, and where a host program ends, there is one end. -/
def Obligations.EndsAreUnique : Prop :=
  (∀ s v k k' t t', CommandEnd s v k t → CommandEnd s v k' t' → k = k' ∧ t = t') ∧
  ∀ s k k' t t', ProgramEnd s k t → ProgramEnd s k' t' → k = k' ∧ t = t'

/-- R151: a program that ends with BUSY = 1 has not ended, and does not end later: not when its last operation, reached after any
number of steps, is the write of a command. -/
def Obligations.ProgramLeftBusyHasNoEnd : Prop :=
  ∀ (s u : State) (n : Nat) (v : Word), Sys2Proof.core.run n s = .next u → u.status.busy = false →
    u.hostMoves (.regWrite 0x00 .w32 v) [] → ∀ k t, ¬ ProgramEnd s k t

/-- R150, R151: an accepted command has its end, while the host only reads STATUS after it and no reset is asserted, unless it meets a
byte never written. The bound is the model's (log 4). -/
def Obligations.AcceptedCommandEnds : Prop :=
  ∀ (s : State) (v : Word) (rest : List HostOp), s.status.busy = false → s.hostMoves (.regWrite 0x00 .w32 v) rest →
    (∀ x ∈ s.turns, x ≠ .reset) → (∀ op ∈ rest, op = .wait ∨ op = .regRead 0x04 .w32) →
    ∃ k ≤ s.turns.length + 2, ∃ t, CommandEnd s v k t ∨
      (Sys2Proof.core.run k s = .next t ∧ t.fault = some .uninitRead)
end

