-- ==== Sys2Proof/Laws/State.lean ====
section
/-!
SUPPORT. One lemma per field per state update, each by rfl, so that no proof unfolds a record update.
-/

namespace Sys2Proof.Machine

@[simp] theorem State.accept_params (s : State) (v : Word) :
    (s.accept v).params = s.params := rfl
@[simp] theorem State.accept_status (s : State) (v : Word) :
    (s.accept v).status = Status.accepted := rfl
@[simp] theorem State.accept_clen (s : State) (v : Word) :
    (s.accept v).clen = s.clen := rfl
@[simp] theorem State.accept_mlen (s : State) (v : Word) :
    (s.accept v).mlen = s.mlen := rfl
@[simp] theorem State.accept_hdr (s : State) (v : Word) :
    (s.accept v).hdr = s.hdr := rfl
@[simp] theorem State.accept_rlen (s : State) (v : Word) :
    (s.accept v).rlen = s.rlen := rfl
@[simp] theorem State.accept_cap (s : State) (v : Word) :
    (s.accept v).cap = s.cap := rfl
@[simp] theorem State.accept_cmdl (s : State) (v : Word) :
    (s.accept v).cmdl = v := rfl
@[simp] theorem State.accept_cbuf (s : State) (v : Word) :
    (s.accept v).cbuf = s.cbuf := rfl
@[simp] theorem State.accept_mbuf (s : State) (v : Word) :
    (s.accept v).mbuf = s.mbuf := rfl
@[simp] theorem State.accept_obuf (s : State) (v : Word) :
    (s.accept v).obuf = s.obuf := rfl
@[simp] theorem State.accept_fault (s : State) (v : Word) :
    (s.accept v).fault = s.fault := rfl
@[simp] theorem State.accept_prog (s : State) (v : Word) :
    (s.accept v).prog = s.prog := rfl
@[simp] theorem State.accept_replies (s : State) (v : Word) :
    (s.accept v).replies = s.replies := rfl
@[simp] theorem State.accept_turns (s : State) (v : Word) :
    (s.accept v).turns = s.turns := rfl

@[simp] theorem State.complete_params (s : State) (e : Err) :
    (s.complete e).params = s.params := rfl
@[simp] theorem State.complete_status (s : State) (e : Err) :
    (s.complete e).status = Status.completed e := rfl
@[simp] theorem State.complete_clen (s : State) (e : Err) :
    (s.complete e).clen = s.clen := rfl
@[simp] theorem State.complete_mlen (s : State) (e : Err) :
    (s.complete e).mlen = s.mlen := rfl
@[simp] theorem State.complete_hdr (s : State) (e : Err) :
    (s.complete e).hdr = s.hdr := rfl
@[simp] theorem State.complete_rlen (s : State) (e : Err) :
    (s.complete e).rlen = s.rlen := rfl
@[simp] theorem State.complete_cap (s : State) (e : Err) :
    (s.complete e).cap = s.cap := rfl
@[simp] theorem State.complete_cmdl (s : State) (e : Err) :
    (s.complete e).cmdl = s.cmdl := rfl
@[simp] theorem State.complete_cbuf (s : State) (e : Err) :
    (s.complete e).cbuf = s.cbuf := rfl
@[simp] theorem State.complete_mbuf (s : State) (e : Err) :
    (s.complete e).mbuf = s.mbuf := rfl
@[simp] theorem State.complete_obuf (s : State) (e : Err) :
    (s.complete e).obuf = s.obuf := rfl
@[simp] theorem State.complete_fault (s : State) (e : Err) :
    (s.complete e).fault = s.fault := rfl
@[simp] theorem State.complete_prog (s : State) (e : Err) :
    (s.complete e).prog = s.prog := rfl
@[simp] theorem State.complete_replies (s : State) (e : Err) :
    (s.complete e).replies = s.replies := rfl
@[simp] theorem State.complete_turns (s : State) (e : Err) :
    (s.complete e).turns = s.turns := rfl

@[simp] theorem State.setFault_params (s : State) (r : Fault) :
    (s.setFault r).params = s.params := rfl
@[simp] theorem State.setFault_status (s : State) (r : Fault) :
    (s.setFault r).status = s.status := rfl
@[simp] theorem State.setFault_clen (s : State) (r : Fault) :
    (s.setFault r).clen = s.clen := rfl
@[simp] theorem State.setFault_mlen (s : State) (r : Fault) :
    (s.setFault r).mlen = s.mlen := rfl
@[simp] theorem State.setFault_hdr (s : State) (r : Fault) :
    (s.setFault r).hdr = s.hdr := rfl
@[simp] theorem State.setFault_rlen (s : State) (r : Fault) :
    (s.setFault r).rlen = s.rlen := rfl
@[simp] theorem State.setFault_cap (s : State) (r : Fault) :
    (s.setFault r).cap = s.cap := rfl
@[simp] theorem State.setFault_cmdl (s : State) (r : Fault) :
    (s.setFault r).cmdl = s.cmdl := rfl
@[simp] theorem State.setFault_cbuf (s : State) (r : Fault) :
    (s.setFault r).cbuf = s.cbuf := rfl
@[simp] theorem State.setFault_mbuf (s : State) (r : Fault) :
    (s.setFault r).mbuf = s.mbuf := rfl
@[simp] theorem State.setFault_obuf (s : State) (r : Fault) :
    (s.setFault r).obuf = s.obuf := rfl
@[simp] theorem State.setFault_fault (s : State) (r : Fault) :
    (s.setFault r).fault = some r := rfl
@[simp] theorem State.setFault_prog (s : State) (r : Fault) :
    (s.setFault r).prog = s.prog := rfl
@[simp] theorem State.setFault_replies (s : State) (r : Fault) :
    (s.setFault r).replies = s.replies := rfl
@[simp] theorem State.setFault_turns (s : State) (r : Fault) :
    (s.setFault r).turns = s.turns := rfl

@[simp] theorem State.withHdr_params (s : State) (h : Nat) :
    (s.withHdr h).params = s.params := rfl
@[simp] theorem State.withHdr_status (s : State) (h : Nat) :
    (s.withHdr h).status = s.status := rfl
@[simp] theorem State.withHdr_clen (s : State) (h : Nat) :
    (s.withHdr h).clen = s.clen := rfl
@[simp] theorem State.withHdr_mlen (s : State) (h : Nat) :
    (s.withHdr h).mlen = s.mlen := rfl
@[simp] theorem State.withHdr_hdr (s : State) (h : Nat) :
    (s.withHdr h).hdr = BitVec.ofNat 32 h := rfl
@[simp] theorem State.withHdr_rlen (s : State) (h : Nat) :
    (s.withHdr h).rlen = s.rlen := rfl
@[simp] theorem State.withHdr_cap (s : State) (h : Nat) :
    (s.withHdr h).cap = s.cap := rfl
@[simp] theorem State.withHdr_cmdl (s : State) (h : Nat) :
    (s.withHdr h).cmdl = s.cmdl := rfl
@[simp] theorem State.withHdr_cbuf (s : State) (h : Nat) :
    (s.withHdr h).cbuf = s.cbuf := rfl
@[simp] theorem State.withHdr_mbuf (s : State) (h : Nat) :
    (s.withHdr h).mbuf = s.mbuf := rfl
@[simp] theorem State.withHdr_obuf (s : State) (h : Nat) :
    (s.withHdr h).obuf = s.obuf := rfl
@[simp] theorem State.withHdr_fault (s : State) (h : Nat) :
    (s.withHdr h).fault = s.fault := rfl
@[simp] theorem State.withHdr_prog (s : State) (h : Nat) :
    (s.withHdr h).prog = s.prog := rfl
@[simp] theorem State.withHdr_replies (s : State) (h : Nat) :
    (s.withHdr h).replies = s.replies := rfl
@[simp] theorem State.withHdr_turns (s : State) (h : Nat) :
    (s.withHdr h).turns = s.turns := rfl

@[simp] theorem State.deliver_params (s : State) (h : Nat) (out : List Byte) :
    (s.deliver h out).params = s.params := rfl
@[simp] theorem State.deliver_status (s : State) (h : Nat) (out : List Byte) :
    (s.deliver h out).status = s.status := rfl
@[simp] theorem State.deliver_clen (s : State) (h : Nat) (out : List Byte) :
    (s.deliver h out).clen = s.clen := rfl
@[simp] theorem State.deliver_mlen (s : State) (h : Nat) (out : List Byte) :
    (s.deliver h out).mlen = s.mlen := rfl
@[simp] theorem State.deliver_hdr (s : State) (h : Nat) (out : List Byte) :
    (s.deliver h out).hdr = s.hdr := rfl
@[simp] theorem State.deliver_rlen (s : State) (h : Nat) (out : List Byte) :
    (s.deliver h out).rlen = BitVec.ofNat 32 (h / 8) := rfl
@[simp] theorem State.deliver_cap (s : State) (h : Nat) (out : List Byte) :
    (s.deliver h out).cap = s.cap := rfl
@[simp] theorem State.deliver_cmdl (s : State) (h : Nat) (out : List Byte) :
    (s.deliver h out).cmdl = s.cmdl := rfl
@[simp] theorem State.deliver_cbuf (s : State) (h : Nat) (out : List Byte) :
    (s.deliver h out).cbuf = s.cbuf := rfl
@[simp] theorem State.deliver_mbuf (s : State) (h : Nat) (out : List Byte) :
    (s.deliver h out).mbuf = s.mbuf := rfl
@[simp] theorem State.deliver_obuf (s : State) (h : Nat) (out : List Byte) :
    (s.deliver h out).obuf = s.obuf.writeBytes 0 out := rfl
@[simp] theorem State.deliver_fault (s : State) (h : Nat) (out : List Byte) :
    (s.deliver h out).fault = s.fault := rfl
@[simp] theorem State.deliver_prog (s : State) (h : Nat) (out : List Byte) :
    (s.deliver h out).prog = s.prog := rfl
@[simp] theorem State.deliver_replies (s : State) (h : Nat) (out : List Byte) :
    (s.deliver h out).replies = s.replies := rfl
@[simp] theorem State.deliver_turns (s : State) (h : Nat) (out : List Byte) :
    (s.deliver h out).turns = s.turns := rfl

@[simp] theorem State.popTurn_params (s : State) :
    s.popTurn.params = s.params := rfl
@[simp] theorem State.popTurn_status (s : State) :
    s.popTurn.status = s.status := rfl
@[simp] theorem State.popTurn_clen (s : State) :
    s.popTurn.clen = s.clen := rfl
@[simp] theorem State.popTurn_mlen (s : State) :
    s.popTurn.mlen = s.mlen := rfl
@[simp] theorem State.popTurn_hdr (s : State) :
    s.popTurn.hdr = s.hdr := rfl
@[simp] theorem State.popTurn_rlen (s : State) :
    s.popTurn.rlen = s.rlen := rfl
@[simp] theorem State.popTurn_cap (s : State) :
    s.popTurn.cap = s.cap := rfl
@[simp] theorem State.popTurn_cmdl (s : State) :
    s.popTurn.cmdl = s.cmdl := rfl
@[simp] theorem State.popTurn_cbuf (s : State) :
    s.popTurn.cbuf = s.cbuf := rfl
@[simp] theorem State.popTurn_mbuf (s : State) :
    s.popTurn.mbuf = s.mbuf := rfl
@[simp] theorem State.popTurn_obuf (s : State) :
    s.popTurn.obuf = s.obuf := rfl
@[simp] theorem State.popTurn_fault (s : State) :
    s.popTurn.fault = s.fault := rfl
@[simp] theorem State.popTurn_prog (s : State) :
    s.popTurn.prog = s.prog := rfl
@[simp] theorem State.popTurn_replies (s : State) :
    s.popTurn.replies = s.replies := rfl
@[simp] theorem State.popTurn_turns (s : State) :
    s.popTurn.turns = s.turns.tail := rfl

@[simp] theorem State.popOp_params (s : State) :
    s.popOp.params = s.params := rfl
@[simp] theorem State.popOp_status (s : State) :
    s.popOp.status = s.status := rfl
@[simp] theorem State.popOp_clen (s : State) :
    s.popOp.clen = s.clen := rfl
@[simp] theorem State.popOp_mlen (s : State) :
    s.popOp.mlen = s.mlen := rfl
@[simp] theorem State.popOp_hdr (s : State) :
    s.popOp.hdr = s.hdr := rfl
@[simp] theorem State.popOp_rlen (s : State) :
    s.popOp.rlen = s.rlen := rfl
@[simp] theorem State.popOp_cap (s : State) :
    s.popOp.cap = s.cap := rfl
@[simp] theorem State.popOp_cmdl (s : State) :
    s.popOp.cmdl = s.cmdl := rfl
@[simp] theorem State.popOp_cbuf (s : State) :
    s.popOp.cbuf = s.cbuf := rfl
@[simp] theorem State.popOp_mbuf (s : State) :
    s.popOp.mbuf = s.mbuf := rfl
@[simp] theorem State.popOp_obuf (s : State) :
    s.popOp.obuf = s.obuf := rfl
@[simp] theorem State.popOp_fault (s : State) :
    s.popOp.fault = s.fault := rfl
@[simp] theorem State.popOp_prog (s : State) :
    s.popOp.prog = s.prog.tail := rfl
@[simp] theorem State.popOp_replies (s : State) :
    s.popOp.replies = s.replies := rfl
@[simp] theorem State.popOp_turns (s : State) :
    s.popOp.turns = s.turns := rfl

@[simp] theorem State.reply_params (s : State) (r : Reply) :
    (s.reply r).params = s.params := rfl
@[simp] theorem State.reply_status (s : State) (r : Reply) :
    (s.reply r).status = s.status := rfl
@[simp] theorem State.reply_clen (s : State) (r : Reply) :
    (s.reply r).clen = s.clen := rfl
@[simp] theorem State.reply_mlen (s : State) (r : Reply) :
    (s.reply r).mlen = s.mlen := rfl
@[simp] theorem State.reply_hdr (s : State) (r : Reply) :
    (s.reply r).hdr = s.hdr := rfl
@[simp] theorem State.reply_rlen (s : State) (r : Reply) :
    (s.reply r).rlen = s.rlen := rfl
@[simp] theorem State.reply_cap (s : State) (r : Reply) :
    (s.reply r).cap = s.cap := rfl
@[simp] theorem State.reply_cmdl (s : State) (r : Reply) :
    (s.reply r).cmdl = s.cmdl := rfl
@[simp] theorem State.reply_cbuf (s : State) (r : Reply) :
    (s.reply r).cbuf = s.cbuf := rfl
@[simp] theorem State.reply_mbuf (s : State) (r : Reply) :
    (s.reply r).mbuf = s.mbuf := rfl
@[simp] theorem State.reply_obuf (s : State) (r : Reply) :
    (s.reply r).obuf = s.obuf := rfl
@[simp] theorem State.reply_fault (s : State) (r : Reply) :
    (s.reply r).fault = s.fault := rfl
@[simp] theorem State.reply_prog (s : State) (r : Reply) :
    (s.reply r).prog = s.prog := rfl
@[simp] theorem State.reply_replies (s : State) (r : Reply) :
    (s.reply r).replies = s.replies ++ [r] := rfl
@[simp] theorem State.reply_turns (s : State) (r : Reply) :
    (s.reply r).turns = s.turns := rfl

@[simp] theorem State.assertReset_params (s : State) :
    s.assertReset.params = s.params := rfl
@[simp] theorem State.assertReset_status (s : State) :
    s.assertReset.status = ⟨false, false, 0⟩ := rfl
@[simp] theorem State.assertReset_clen (s : State) :
    s.assertReset.clen = 0 := rfl
@[simp] theorem State.assertReset_mlen (s : State) :
    s.assertReset.mlen = 0 := rfl
@[simp] theorem State.assertReset_hdr (s : State) :
    s.assertReset.hdr = 0 := rfl
@[simp] theorem State.assertReset_rlen (s : State) :
    s.assertReset.rlen = 0 := rfl
@[simp] theorem State.assertReset_cap (s : State) :
    s.assertReset.cap = 0 := rfl
@[simp] theorem State.assertReset_cmdl (s : State) :
    s.assertReset.cmdl = 0 := rfl
@[simp] theorem State.assertReset_cbuf (s : State) :
    s.assertReset.cbuf = [] := rfl
@[simp] theorem State.assertReset_mbuf (s : State) :
    s.assertReset.mbuf = [] := rfl
@[simp] theorem State.assertReset_obuf (s : State) :
    s.assertReset.obuf = [] := rfl
@[simp] theorem State.assertReset_fault (s : State) :
    s.assertReset.fault = none := rfl
@[simp] theorem State.assertReset_prog (s : State) :
    s.assertReset.prog = s.prog := rfl
@[simp] theorem State.assertReset_replies (s : State) :
    s.assertReset.replies = s.replies := rfl
@[simp] theorem State.assertReset_turns (s : State) :
    s.assertReset.turns = s.turns := rfl

@[simp] theorem State.withFetchWord_params (s : State) (n w : Nat) :
    (s.withFetchWord n w).params = s.params := rfl
@[simp] theorem State.withFetchWord_status (s : State) (n w : Nat) :
    (s.withFetchWord n w).status = Status.accepted := rfl
@[simp] theorem State.withFetchWord_clen (s : State) (n w : Nat) :
    (s.withFetchWord n w).clen = s.clen := rfl
@[simp] theorem State.withFetchWord_mlen (s : State) (n w : Nat) :
    (s.withFetchWord n w).mlen = s.mlen := rfl
@[simp] theorem State.withFetchWord_hdr (s : State) (n w : Nat) :
    (s.withFetchWord n w).hdr = s.hdr := rfl
@[simp] theorem State.withFetchWord_rlen (s : State) (n w : Nat) :
    (s.withFetchWord n w).rlen = s.rlen := rfl
@[simp] theorem State.withFetchWord_cap (s : State) (n w : Nat) :
    (s.withFetchWord n w).cap = s.cap := rfl
@[simp] theorem State.withFetchWord_cmdl (s : State) (n w : Nat) :
    (s.withFetchWord n w).cmdl = BitVec.ofNat 32 (w % 2 ^ n) := rfl
@[simp] theorem State.withFetchWord_cbuf (s : State) (n w : Nat) :
    (s.withFetchWord n w).cbuf = s.cbuf := rfl
@[simp] theorem State.withFetchWord_mbuf (s : State) (n w : Nat) :
    (s.withFetchWord n w).mbuf = s.mbuf := rfl
@[simp] theorem State.withFetchWord_obuf (s : State) (n w : Nat) :
    (s.withFetchWord n w).obuf = s.obuf := rfl
@[simp] theorem State.withFetchWord_fault (s : State) (n w : Nat) :
    (s.withFetchWord n w).fault = none := rfl
@[simp] theorem State.withFetchWord_prog (s : State) (n w : Nat) :
    (s.withFetchWord n w).prog = s.prog := rfl
@[simp] theorem State.withFetchWord_replies (s : State) (n w : Nat) :
    (s.withFetchWord n w).replies = s.replies := rfl
@[simp] theorem State.withFetchWord_turns (s : State) (n w : Nat) :
    (s.withFetchWord n w).turns = .engine :: s.turns := rfl

@[simp] theorem State.withBuf_cbuf_params (s : State) (m : Memory) :
    (s.withBuf .cbuf m).params = s.params := rfl
@[simp] theorem State.withBuf_cbuf_status (s : State) (m : Memory) :
    (s.withBuf .cbuf m).status = s.status := rfl
@[simp] theorem State.withBuf_cbuf_clen (s : State) (m : Memory) :
    (s.withBuf .cbuf m).clen = s.clen := rfl
@[simp] theorem State.withBuf_cbuf_mlen (s : State) (m : Memory) :
    (s.withBuf .cbuf m).mlen = s.mlen := rfl
@[simp] theorem State.withBuf_cbuf_hdr (s : State) (m : Memory) :
    (s.withBuf .cbuf m).hdr = s.hdr := rfl
@[simp] theorem State.withBuf_cbuf_rlen (s : State) (m : Memory) :
    (s.withBuf .cbuf m).rlen = s.rlen := rfl
@[simp] theorem State.withBuf_cbuf_cap (s : State) (m : Memory) :
    (s.withBuf .cbuf m).cap = s.cap := rfl
@[simp] theorem State.withBuf_cbuf_cmdl (s : State) (m : Memory) :
    (s.withBuf .cbuf m).cmdl = s.cmdl := rfl
@[simp] theorem State.withBuf_cbuf_cbuf (s : State) (m : Memory) :
    (s.withBuf .cbuf m).cbuf = m := rfl
@[simp] theorem State.withBuf_cbuf_mbuf (s : State) (m : Memory) :
    (s.withBuf .cbuf m).mbuf = s.mbuf := rfl
@[simp] theorem State.withBuf_cbuf_obuf (s : State) (m : Memory) :
    (s.withBuf .cbuf m).obuf = s.obuf := rfl
@[simp] theorem State.withBuf_cbuf_fault (s : State) (m : Memory) :
    (s.withBuf .cbuf m).fault = s.fault := rfl
@[simp] theorem State.withBuf_cbuf_prog (s : State) (m : Memory) :
    (s.withBuf .cbuf m).prog = s.prog := rfl
@[simp] theorem State.withBuf_cbuf_replies (s : State) (m : Memory) :
    (s.withBuf .cbuf m).replies = s.replies := rfl
@[simp] theorem State.withBuf_cbuf_turns (s : State) (m : Memory) :
    (s.withBuf .cbuf m).turns = s.turns := rfl

@[simp] theorem State.withBuf_mbuf_params (s : State) (m : Memory) :
    (s.withBuf .mbuf m).params = s.params := rfl
@[simp] theorem State.withBuf_mbuf_status (s : State) (m : Memory) :
    (s.withBuf .mbuf m).status = s.status := rfl
@[simp] theorem State.withBuf_mbuf_clen (s : State) (m : Memory) :
    (s.withBuf .mbuf m).clen = s.clen := rfl
@[simp] theorem State.withBuf_mbuf_mlen (s : State) (m : Memory) :
    (s.withBuf .mbuf m).mlen = s.mlen := rfl
@[simp] theorem State.withBuf_mbuf_hdr (s : State) (m : Memory) :
    (s.withBuf .mbuf m).hdr = s.hdr := rfl
@[simp] theorem State.withBuf_mbuf_rlen (s : State) (m : Memory) :
    (s.withBuf .mbuf m).rlen = s.rlen := rfl
@[simp] theorem State.withBuf_mbuf_cap (s : State) (m : Memory) :
    (s.withBuf .mbuf m).cap = s.cap := rfl
@[simp] theorem State.withBuf_mbuf_cmdl (s : State) (m : Memory) :
    (s.withBuf .mbuf m).cmdl = s.cmdl := rfl
@[simp] theorem State.withBuf_mbuf_cbuf (s : State) (m : Memory) :
    (s.withBuf .mbuf m).cbuf = s.cbuf := rfl
@[simp] theorem State.withBuf_mbuf_mbuf (s : State) (m : Memory) :
    (s.withBuf .mbuf m).mbuf = m := rfl
@[simp] theorem State.withBuf_mbuf_obuf (s : State) (m : Memory) :
    (s.withBuf .mbuf m).obuf = s.obuf := rfl
@[simp] theorem State.withBuf_mbuf_fault (s : State) (m : Memory) :
    (s.withBuf .mbuf m).fault = s.fault := rfl
@[simp] theorem State.withBuf_mbuf_prog (s : State) (m : Memory) :
    (s.withBuf .mbuf m).prog = s.prog := rfl
@[simp] theorem State.withBuf_mbuf_replies (s : State) (m : Memory) :
    (s.withBuf .mbuf m).replies = s.replies := rfl
@[simp] theorem State.withBuf_mbuf_turns (s : State) (m : Memory) :
    (s.withBuf .mbuf m).turns = s.turns := rfl

@[simp] theorem State.withBuf_obuf_params (s : State) (m : Memory) :
    (s.withBuf .obuf m).params = s.params := rfl
@[simp] theorem State.withBuf_obuf_status (s : State) (m : Memory) :
    (s.withBuf .obuf m).status = s.status := rfl
@[simp] theorem State.withBuf_obuf_clen (s : State) (m : Memory) :
    (s.withBuf .obuf m).clen = s.clen := rfl
@[simp] theorem State.withBuf_obuf_mlen (s : State) (m : Memory) :
    (s.withBuf .obuf m).mlen = s.mlen := rfl
@[simp] theorem State.withBuf_obuf_hdr (s : State) (m : Memory) :
    (s.withBuf .obuf m).hdr = s.hdr := rfl
@[simp] theorem State.withBuf_obuf_rlen (s : State) (m : Memory) :
    (s.withBuf .obuf m).rlen = s.rlen := rfl
@[simp] theorem State.withBuf_obuf_cap (s : State) (m : Memory) :
    (s.withBuf .obuf m).cap = s.cap := rfl
@[simp] theorem State.withBuf_obuf_cmdl (s : State) (m : Memory) :
    (s.withBuf .obuf m).cmdl = s.cmdl := rfl
@[simp] theorem State.withBuf_obuf_cbuf (s : State) (m : Memory) :
    (s.withBuf .obuf m).cbuf = s.cbuf := rfl
@[simp] theorem State.withBuf_obuf_mbuf (s : State) (m : Memory) :
    (s.withBuf .obuf m).mbuf = s.mbuf := rfl
@[simp] theorem State.withBuf_obuf_obuf (s : State) (m : Memory) :
    (s.withBuf .obuf m).obuf = m := rfl
@[simp] theorem State.withBuf_obuf_fault (s : State) (m : Memory) :
    (s.withBuf .obuf m).fault = s.fault := rfl
@[simp] theorem State.withBuf_obuf_prog (s : State) (m : Memory) :
    (s.withBuf .obuf m).prog = s.prog := rfl
@[simp] theorem State.withBuf_obuf_replies (s : State) (m : Memory) :
    (s.withBuf .obuf m).replies = s.replies := rfl
@[simp] theorem State.withBuf_obuf_turns (s : State) (m : Memory) :
    (s.withBuf .obuf m).turns = s.turns := rfl

@[simp] theorem State.buf_cbuf (s : State) : s.buf .cbuf = s.cbuf := rfl
@[simp] theorem State.buf_mbuf (s : State) : s.buf .mbuf = s.mbuf := rfl
@[simp] theorem State.buf_obuf (s : State) : s.buf .obuf = s.obuf := rfl

/-- Writing a buffer is read back through `buf`. -/
theorem State.buf_withBuf_same (s : State) (b : Buf) (m : Memory) : (s.withBuf b m).buf b = m := by
  cases b <;> rfl

/-- Writing a buffer leaves the other buffers alone. -/
theorem State.buf_withBuf_ne (s : State) {b c : Buf} (m : Memory) (h : c ≠ b) :
    (s.withBuf b m).buf c = s.buf c := by
  cases b <;> cases c <;> first | rfl | exact absurd rfl h

end Sys2Proof.Machine
end

