-- ==== Sys2Proof/Laws/Framer.lean ====
section
/-!
SUPPORT. The framer: the length and the bits of a frame, the value of a bit group, and what Parse delivers.
-/

namespace Sys2Proof.Machine

@[simp] theorem length_bitsMsbFirst (w : Nat) (v : BitVec w) : (bitsMsbFirst w v).length = w := by
  simp [bitsMsbFirst]

/-- Bit `i` of a value, most significant first. -/
theorem getElem?_bitsMsbFirst {w : Nat} (v : BitVec w) {i : Nat} (h : i < w) :
    (bitsMsbFirst w v)[i]? = some (v.getLsbD (w - 1 - i)) := by
  simp [bitsMsbFirst, List.getElem?_range h]

@[simp] theorem length_headerOf (l : Nat) : (headerOf l).length = 32 := length_bitsMsbFirst _ _

@[simp] theorem length_payloadOf (msg : List Byte) : (payloadOf msg).length = 8 * msg.length := by
  induction msg with
  | nil => rfl
  | cons v rest ih =>
    have : payloadOf (v :: rest) = bitsMsbFirst 8 v ++ payloadOf rest := by simp [payloadOf]
    rw [this, List.length_append, ih, length_bitsMsbFirst, List.length_cons]
    omega

/-- R72: a frame has 32 + 8·L bits. -/
@[simp] theorem length_frame (msg : List Byte) : (frame msg).length = 32 + 8 * msg.length := by
  simp [frame]

/-- R72: payload bit `i` is bit `7 - i mod 8` of message byte `i / 8`. -/
theorem getElem?_payloadOf (msg : List Byte) {i : Nat} (h : i < 8 * msg.length) :
    (payloadOf msg)[i]? = some ((msg.getD (i / 8) 0).getLsbD (7 - i % 8)) := by
  induction msg generalizing i with
  | nil => simp at h
  | cons v rest ih =>
    have hcons : payloadOf (v :: rest) = bitsMsbFirst 8 v ++ payloadOf rest := by simp [payloadOf]
    rw [hcons]
    by_cases hi : i < 8
    · rw [List.getElem?_append_left (by simpa using hi), getElem?_bitsMsbFirst v hi]
      rw [Nat.div_eq_of_lt hi, Nat.mod_eq_of_lt hi]
      rfl
    · rw [List.getElem?_append_right (by simpa using hi), length_bitsMsbFirst,
        ih (by simp only [List.length_cons] at h; omega)]
      rw [show i / 8 = (i - 8) / 8 + 1 by omega, show i % 8 = (i - 8) % 8 by omega]
      simp

/-- R72: header bit `i` is bit `31 - i` of the length in bits. -/
theorem getElem?_headerOf (l : Nat) {i : Nat} (h : i < 32) :
    (headerOf l)[i]? = some ((8 * l).testBit (31 - i)) := by
  rw [headerOf, getElem?_bitsMsbFirst _ h, BitVec.getLsbD_ofNat]
  have : 32 - 1 - i < 32 := by omega
  simp [this]

/-- R72: the frame, bit by bit. -/
theorem getElem?_frame (msg : List Byte) {i : Nat} (h : i < 32 + 8 * msg.length) :
    (frame msg)[i]? = some (if i < 32 then (8 * msg.length).testBit (31 - i)
      else (msg.getD ((i - 32) / 8) 0).getLsbD (7 - (i - 32) % 8)) := by
  unfold frame
  split_ifs with hi
  · rw [List.getElem?_append_left (by simpa using hi), getElem?_headerOf _ hi]
  · rw [List.getElem?_append_right (by simpa using hi), length_headerOf, getElem?_payloadOf _ (by omega)]

/-- The value of bits after a value `acc`. -/
theorem foldl_bits (acc : Nat) (bits : BitString) :
    bits.foldl (fun acc b => 2 * acc + b.toNat) acc = acc * 2 ^ bits.length + bitsValue bits := by
  induction bits generalizing acc with
  | nil => simp [bitsValue]
  | cons b rest ih =>
    simp only [bitsValue, List.foldl_cons, List.length_cons]
    rw [ih, ih (2 * 0 + b.toNat), Nat.pow_succ]
    ring

/-- R75: the first bit has the highest weight. -/
theorem bitsValue_cons (b : Bool) (bits : BitString) :
    bitsValue (b :: bits) = b.toNat * 2 ^ bits.length + bitsValue bits := by
  have := foldl_bits (2 * 0 + b.toNat) bits
  simpa [bitsValue] using this

@[simp] theorem bitsValue_nil : bitsValue [] = 0 := rfl

/-- A value fits its bits. -/
theorem bitsValue_lt (bits : BitString) : bitsValue bits < 2 ^ bits.length := by
  induction bits with
  | nil => simp
  | cons b rest ih =>
    rw [bitsValue_cons, List.length_cons, Nat.pow_succ]
    cases b <;> simp <;> omega

/-- The bits of a number, most significant first, have its value modulo the width. -/
theorem bitsValue_testBits (n x : Nat) :
    bitsValue ((List.range n).map fun i => x.testBit (n - 1 - i)) = x % 2 ^ n := by
  induction n with
  | zero => simp [Nat.mod_one]
  | succ n ih =>
    have hrest : (List.range n).map (fun i => x.testBit (n + 1 - 1 - (i + 1))) =
        (List.range n).map fun i => x.testBit (n - 1 - i) := by
      refine List.map_congr_left fun i _ => ?_
      congr 1
      omega
    rw [List.range_succ_eq_map, List.map_cons, List.map_map]
    simp only [Function.comp_def, Nat.succ_eq_add_one]
    rw [hrest, bitsValue_cons, ih, Nat.mod_pow_succ, Nat.toNat_testBit]
    simp
    ring

/-- The bits of a value, read back, are the value. -/
theorem bitsValue_bitsMsbFirst (w : Nat) (v : BitVec w) : bitsValue (bitsMsbFirst w v) = v.toNat := by
  have := bitsValue_testBits w v.toNat
  rw [Nat.mod_eq_of_lt v.isLt] at this
  exact this

/-- R73, R75: the header of a message of `l` bytes reads back as 8·l. -/
theorem headerValue_headerOf {l : Nat} (h : l ≤ 2 ^ 29 - 1) : headerValue (headerOf l) = 8 * l := by
  unfold headerValue headerOf
  rw [bitsValue_bitsMsbFirst, BitVec.toNat_ofNat, Nat.mod_eq_of_lt (by omega)]

@[simp] theorem length_groupBytes (p : BitString) (n : Nat) : (groupBytes p n).length = n := by
  induction n generalizing p with
  | zero => rfl
  | succ n ih => simp [groupBytes, ih]

/-- Group `k` of a bit string. -/
theorem getElem?_groupBytes (p : BitString) {n k : Nat} (h : k < n) :
    (groupBytes p n)[k]? = some (BitVec.ofNat 8 (bitsValue ((p.drop (8 * k)).take 8))) := by
  induction n generalizing p k with
  | zero => omega
  | succ n ih =>
    cases k with
    | zero => simp [groupBytes]
    | succ k =>
      simp only [groupBytes, List.getElem?_cons_succ]
      rw [ih _ (by omega), List.drop_drop]
      congr 5
      omega

/-- R76: the groups of a message's payload are its bytes. -/
theorem groupBytes_payloadOf (msg : List Byte) : groupBytes (payloadOf msg) msg.length = msg := by
  induction msg with
  | nil => rfl
  | cons v rest ih =>
    have hcons : payloadOf (v :: rest) = bitsMsbFirst 8 v ++ payloadOf rest := by simp [payloadOf]
    have ht : (bitsMsbFirst 8 v ++ payloadOf rest).take 8 = bitsMsbFirst 8 v :=
      List.take_left' (length_bitsMsbFirst 8 v)
    have hd : (bitsMsbFirst 8 v ++ payloadOf rest).drop 8 = payloadOf rest :=
      List.drop_left' (length_bitsMsbFirst 8 v)
    rw [hcons, List.length_cons, groupBytes, ht, hd, ih, bitsValue_bitsMsbFirst]
    simp

/-- R76, R77: what Parse answers. -/
theorem parse_eq (hdr : Nat) (p : BitString) :
    parse hdr p = if p.length < hdr then .error .truncated
      else if hdr % 8 ≠ 0 then .error .notByteAligned
      else .ok (groupBytes p (hdr / 8)) := rfl

/-- R76: a message that Parse delivers has hdr / 8 bytes, and no check failed. -/
theorem parse_eq_ok {hdr : Nat} {p : BitString} {out : List Byte} (h : parse hdr p = .ok out) :
    hdr ≤ p.length ∧ hdr % 8 = 0 ∧ out = groupBytes p (hdr / 8) := by
  unfold parse at h
  split_ifs at h with h₁ h₂
  · exact ⟨by omega, by simpa using h₂, by simpa using h.symm⟩

/-- R76: an error of Parse is Truncated or NotByteAligned. -/
theorem parse_eq_error {hdr : Nat} {p : BitString} {e : Err} (h : parse hdr p = .error e) :
    (e = .truncated ∧ p.length < hdr) ∨ (e = .notByteAligned ∧ hdr ≤ p.length ∧ hdr % 8 ≠ 0) := by
  unfold parse at h
  split_ifs at h with h₁ h₂
  · exact .inl ⟨by simpa using h.symm, h₁⟩
  · exact .inr ⟨by simpa using h.symm, by omega, h₂⟩

end Sys2Proof.Machine
end

