-- ==== Sys2Proof/Laws/Memory.lean ====
section
/-!
SUPPORT. The laws of a buffer: a read after a write, that every operation keeps the canonical form and the size, and
that buffers in canonical form with the same bytes are the same data.
-/

namespace Sys2Proof.Machine

@[simp] theorem Memory.read_nil (a : Nat) : Memory.read [] a = none := rfl

/-- A byte just written is read back. -/
@[simp] theorem Memory.read_write_same (m : Memory) (a : Nat) (v : Byte) :
    (m.write a v).read a = some v := by
  induction m with
  | nil => simp [Memory.write, Memory.read]
  | cons c rest ih =>
    obtain ⟨b, w⟩ := c
    unfold Memory.write
    split_ifs with h₁ h₂
    · simp [Memory.read]
    · simp [Memory.read]
    · simp [Memory.read, h₂, ih]

/-- A write leaves every other byte alone. -/
theorem Memory.read_write_ne (m : Memory) {a b : Nat} (v : Byte) (h : b ≠ a) :
    (m.write a v).read b = m.read b := by
  induction m with
  | nil => simp [Memory.write, Memory.read, h]
  | cons c rest ih =>
    obtain ⟨k, w⟩ := c
    unfold Memory.write
    split_ifs with h₁ h₂
    · simp [Memory.read, h]
    · simp [Memory.read, h, ← h₂]
    · simp only [Memory.read, ih]

/-- A read after a write, in one equation. -/
theorem Memory.read_write (m : Memory) (a b : Nat) (v : Byte) :
    (m.write a v).read b = if b = a then some v else m.read b := by
  split_ifs with h
  · rw [h, Memory.read_write_same]
  · exact Memory.read_write_ne m v h

/-- The cells of a written buffer are the cell written and cells that were there. -/
theorem Memory.mem_write {m : Memory} {a : Nat} {v : Byte} {c : Host.Cell} (h : c ∈ m.write a v) :
    c = (a, v) ∨ c ∈ m := by
  induction m with
  | nil => simpa [Memory.write] using h
  | cons d rest ih =>
    obtain ⟨b, w⟩ := d
    unfold Memory.write at h
    split_ifs at h with h₁ h₂
    · simpa using h
    · rcases List.mem_cons.mp h with h | h
      · exact .inl h
      · exact .inr (List.mem_cons_of_mem _ h)
    · rcases List.mem_cons.mp h with h | h
      · exact .inr (h ▸ List.mem_cons_self)
      · exact (ih h).imp_right (List.mem_cons_of_mem _)

/-- A write keeps the canonical form. -/
theorem Memory.wf_write {m : Memory} (h : m.wf) (a : Nat) (v : Byte) : (m.write a v).wf := by
  induction m with
  | nil => simp [Memory.write, Memory.wf]
  | cons d rest ih =>
    obtain ⟨b, w⟩ := d
    obtain ⟨hb, hr⟩ := List.pairwise_cons.mp h
    unfold Memory.write
    split_ifs with h₁ h₂
    · refine List.pairwise_cons.mpr ⟨fun c hc => ?_, h⟩
      rcases List.mem_cons.mp hc with rfl | hc
      · exact h₁
      · exact h₁.trans (hb c hc)
    · subst h₂
      exact List.pairwise_cons.mpr ⟨hb, hr⟩
    · refine List.pairwise_cons.mpr ⟨fun c hc => ?_, ih hr⟩
      rcases Memory.mem_write hc with rfl | hc
      · show b < a
        omega
      · exact hb c hc

/-- Writing consecutive bytes keeps the canonical form. -/
theorem Memory.wf_writeBytes {m : Memory} (h : m.wf) (a : Nat) (vs : List Byte) :
    (m.writeBytes a vs).wf := by
  induction vs generalizing m a with
  | nil => exact h
  | cons v vs ih => exact ih (Memory.wf_write h a v) (a + 1)

/-- A buffer's byte after writing consecutive bytes. -/
theorem Memory.read_writeBytes (m : Memory) (a : Nat) (vs : List Byte) (b : Nat) :
    (m.writeBytes a vs).read b =
      if a ≤ b ∧ b < a + vs.length then vs[b - a]? else m.read b := by
  induction vs generalizing m a with
  | nil =>
    have : ¬ (a ≤ b ∧ b < a) := by omega
    simp [Memory.writeBytes, this]
  | cons v vs ih =>
    simp only [Memory.writeBytes, ih, Memory.read_write, List.length_cons]
    by_cases h₁ : a + 1 ≤ b ∧ b < a + 1 + vs.length
    · have h₂ : a ≤ b ∧ b < a + (vs.length + 1) := by omega
      rw [if_pos h₁, if_pos h₂, show b - a = (b - (a + 1)) + 1 by omega]
      simp
    · by_cases h₃ : b = a
      · subst h₃
        simp
      · have h₂ : ¬ (a ≤ b ∧ b < a + (vs.length + 1)) := by omega
        rw [if_neg h₁, if_neg h₂, if_neg h₃]

/-- The cells after writing consecutive bytes. -/
theorem Memory.mem_writeBytes {m : Memory} {a : Nat} {vs : List Byte} {c : Host.Cell}
    (h : c ∈ m.writeBytes a vs) : (a ≤ c.1 ∧ c.1 < a + vs.length) ∨ c ∈ m := by
  induction vs generalizing m a with
  | nil => exact .inr h
  | cons v vs ih =>
    rcases ih h with h | h
    · left
      simp only [List.length_cons]
      omega
    · rcases Memory.mem_write h with rfl | h
      · left
        simp
      · exact .inr h

/-- An index below every listed one is not listed. -/
theorem Memory.read_eq_none_of_lt {m : Memory} {a : Nat} (h : ∀ c ∈ m, a < c.1) : m.read a = none := by
  induction m with
  | nil => rfl
  | cons d rest ih =>
    obtain ⟨b, w⟩ := d
    have hb : a < b := h (b, w) List.mem_cons_self
    have : a ≠ b := by omega
    simp only [Memory.read, if_neg this]
    exact ih fun c hc => h c (List.mem_cons_of_mem _ hc)

/-- A byte that is read stands in a listed cell. -/
theorem Memory.mem_of_read {m : Memory} {a : Nat} {v : Byte} (h : m.read a = some v) : (a, v) ∈ m := by
  induction m with
  | nil => simp [Memory.read] at h
  | cons d rest ih =>
    obtain ⟨b, w⟩ := d
    simp only [Memory.read] at h
    split_ifs at h with hb
    · simp only [Option.some.injEq] at h
      subst hb h
      exact List.mem_cons_self
    · exact List.mem_cons_of_mem _ (ih h)

/-- Two buffers in canonical form with the same bytes are the same data. -/
theorem Memory.ext_of_read {m m' : Memory} (h : m.wf) (h' : m'.wf)
    (hr : ∀ a, m.read a = m'.read a) : m = m' := by
  induction m generalizing m' with
  | nil =>
    cases m' with
    | nil => rfl
    | cons d rest => simpa [Memory.read] using hr d.1
  | cons c rest ih =>
    obtain ⟨a, v⟩ := c
    obtain ⟨ha, hrest⟩ := List.pairwise_cons.mp h
    cases m' with
    | nil => simpa [Memory.read] using hr a
    | cons d rest' =>
      obtain ⟨b, w⟩ := d
      obtain ⟨hb, hrest'⟩ := List.pairwise_cons.mp h'
      have hab : a = b := by
        rcases Nat.lt_trichotomy a b with hlt | heq | hgt
        · have h₁ := hr a
          have h₂ : Memory.read ((b, w) :: rest') a = none :=
            Memory.read_eq_none_of_lt fun c hc => by
              rcases List.mem_cons.mp hc with rfl | hc
              · exact hlt
              · exact hlt.trans (hb c hc)
          simp [Memory.read] at h₁ h₂
          simp_all
        · exact heq
        · have h₁ := hr b
          have h₂ : Memory.read ((a, v) :: rest) b = none :=
            Memory.read_eq_none_of_lt fun c hc => by
              rcases List.mem_cons.mp hc with rfl | hc
              · exact hgt
              · exact hgt.trans (ha c hc)
          simp [Memory.read] at h₁ h₂
          simp_all
      subst hab
      have hv : v = w := by simpa [Memory.read] using hr a
      subst hv
      congr 1
      refine ih hrest hrest' fun k => ?_
      by_cases hk : k = a
      · subst hk
        rw [Memory.read_eq_none_of_lt ha, Memory.read_eq_none_of_lt hb]
      · simpa [Memory.read, hk] using hr k

/-- `n` bytes that were all written are read in order. -/
theorem Memory.readBytes_eq_some {m : Memory} {a n : Nat} {vs : List Byte} :
    m.readBytes a n = some vs ↔ vs.length = n ∧ ∀ k < n, m.read (a + k) = vs[k]? := by
  induction n generalizing a vs with
  | zero =>
    cases vs <;> simp [Memory.readBytes]
  | succ n ih =>
    unfold Memory.readBytes
    constructor
    · intro h
      split at h
      · simp at h
      · rename_i v hv
        split at h
        · simp at h
        · rename_i ws hws
          simp only [Option.some.injEq] at h
          subst h
          obtain ⟨hl, hk⟩ := ih.mp hws
          refine ⟨by simp [hl], fun k hlt => ?_⟩
          cases k with
          | zero => simpa using hv
          | succ k =>
            have := hk k (by omega)
            rw [show a + (k + 1) = a + 1 + k by omega, this]
            simp
    · rintro ⟨hl, hk⟩
      cases vs with
      | nil => simp at hl
      | cons v ws =>
        have h₀ : m.read a = some v := by simpa using hk 0 (by omega)
        have h₁ : m.readBytes (a + 1) n = some ws :=
          ih.mpr ⟨by simpa using hl, fun k hlt => by
            have := hk (k + 1) (by omega)
            rw [show a + 1 + k = a + (k + 1) by omega, this]
            simp⟩
        rw [h₀]
        simp only [h₁]

/-- `n` bytes cannot be read exactly when one of them was never written. -/
theorem Memory.readBytes_eq_none {m : Memory} {a n : Nat} :
    m.readBytes a n = none ↔ ∃ k < n, m.read (a + k) = none := by
  induction n generalizing a with
  | zero => simp [Memory.readBytes]
  | succ n ih =>
    unfold Memory.readBytes
    cases h₀ : m.read a with
    | none => exact ⟨fun _ => ⟨0, by omega, h₀⟩, fun _ => rfl⟩
    | some v =>
      have hsplit : (∃ k < n + 1, m.read (a + k) = none) ↔ ∃ k < n, m.read (a + 1 + k) = none := by
        constructor
        · rintro ⟨k, hk, hn⟩
          cases k with
          | zero => simp [h₀] at hn
          | succ k => exact ⟨k, by omega, by rw [show a + 1 + k = a + (k + 1) by omega]; exact hn⟩
        · rintro ⟨k, hk, hn⟩
          exact ⟨k + 1, by omega, by rw [show a + (k + 1) = a + 1 + k by omega]; exact hn⟩
      rw [hsplit, ← ih]
      cases m.readBytes (a + 1) n <;> simp

end Sys2Proof.Machine
end

