-- ==== Sys2Proof/Laws/Schemes.lean ====
section
/-!
SUPPORT. The embedding schemes: what an in-place rewrite of carrier bytes leaves, the pairs of a stream, and what the
extractors come to.
-/

namespace Sys2Proof.Machine

/-- An in-place rewrite has no result exactly when a byte it reads was never written. -/
theorem rewriteBytes_eq_none {fs : List (Byte → Byte)} {k : Nat} {m : Memory} :
    rewriteBytes fs k m = none ↔ ∃ i < fs.length, m.read (k + i) = none := by
  induction fs generalizing k m with
  | nil => simp [rewriteBytes]
  | cons f rest ih =>
    unfold rewriteBytes
    cases h₀ : m.read k with
    | none => exact ⟨fun _ => ⟨0, by simp, h₀⟩, fun _ => rfl⟩
    | some v =>
      simp only [ih, List.length_cons]
      constructor
      · rintro ⟨i, hi, hn⟩
        refine ⟨i + 1, by omega, ?_⟩
        rw [Memory.read_write_ne _ _ (by omega)] at hn
        rw [show k + (i + 1) = k + 1 + i by omega]
        exact hn
      · rintro ⟨i, hi, hn⟩
        cases i with
        | zero => simp [h₀] at hn
        | succ i =>
          refine ⟨i, by omega, ?_⟩
          rw [Memory.read_write_ne _ _ (by omega), show k + 1 + i = k + (i + 1) by omega]
          exact hn

/-- The bytes after an in-place rewrite: each byte in reach is the function of its old value, every other is as it was. -/
theorem read_rewriteBytes {fs : List (Byte → Byte)} {k : Nat} {m m' : Memory}
    (h : rewriteBytes fs k m = some m') (b : Nat) :
    m'.read b = if k ≤ b ∧ b < k + fs.length then
      (m.read b).bind fun v => (fs[b - k]?).map fun f => f v else m.read b := by
  induction fs generalizing k m with
  | nil =>
    have : ¬ (k ≤ b ∧ b < k) := by omega
    simp only [rewriteBytes, Option.some.injEq] at h
    simp [this, h]
  | cons f rest ih =>
    unfold rewriteBytes at h
    cases h₀ : m.read k with
    | none => simp [h₀] at h
    | some v =>
      simp only [h₀] at h
      rw [ih h]
      simp only [List.length_cons]
      by_cases hb : b = k
      · subst hb
        simp [h₀]
      · rw [Memory.read_write_ne _ _ hb]
        by_cases h₁ : k + 1 ≤ b ∧ b < k + 1 + rest.length
        · have h₂ : k ≤ b ∧ b < k + (rest.length + 1) := by omega
          rw [if_pos h₁, if_pos h₂, show b - k = b - (k + 1) + 1 by omega]
          simp
        · have h₂ : ¬ (k ≤ b ∧ b < k + (rest.length + 1)) := by omega
          rw [if_neg h₁, if_neg h₂]

/-- An in-place rewrite keeps the canonical form. -/
theorem wf_rewriteBytes {fs : List (Byte → Byte)} {k : Nat} {m m' : Memory}
    (h : rewriteBytes fs k m = some m') (hw : m.wf) : m'.wf := by
  induction fs generalizing k m with
  | nil =>
    simp only [rewriteBytes, Option.some.injEq] at h
    exact h ▸ hw
  | cons f rest ih =>
    unfold rewriteBytes at h
    cases h₀ : m.read k with
    | none => simp [h₀] at h
    | some v =>
      simp only [h₀] at h
      exact ih h (Memory.wf_write hw k _)

/-- An in-place rewrite lists no index that was not listed. -/
theorem mem_rewriteBytes {fs : List (Byte → Byte)} {k : Nat} {m m' : Memory}
    (h : rewriteBytes fs k m = some m') {c : Host.Cell} (hc : c ∈ m') : ∃ v, (c.1, v) ∈ m := by
  induction fs generalizing k m with
  | nil =>
    simp only [rewriteBytes, Option.some.injEq] at h
    exact ⟨c.2, h ▸ hc⟩
  | cons f rest ih =>
    unfold rewriteBytes at h
    cases h₀ : m.read k with
    | none => simp [h₀] at h
    | some v =>
      simp only [h₀] at h
      obtain ⟨w, hw⟩ := ih h
      rcases Memory.mem_write hw with heq | hw
      · obtain ⟨h₁, -⟩ := Prod.mk.inj heq
        exact ⟨v, h₁ ▸ Memory.mem_of_read h₀⟩
      · exact ⟨w, hw⟩

@[simp] theorem length_pairsOf (s : BitString) : (pairsOf s).length = s.length / 2 := by
  induction s using pairsOf.induct with
  | case1 => rfl
  | case2 a => simp [pairsOf]
  | case3 a b rest ih =>
    simp only [pairsOf, List.length_cons, ih]
    omega

/-- R96: pair `k` of a stream is its bits 2k and 2k + 1. -/
theorem getElem?_pairsOf (s : BitString) {k : Nat} {a b : Bool} (ha : s[2 * k]? = some a)
    (hb : s[2 * k + 1]? = some b) : (pairsOf s)[k]? = some (a, b) := by
  induction s using pairsOf.induct generalizing k with
  | case1 => simp at ha
  | case2 c => simp at hb
  | case3 c d rest ih =>
    cases k with
    | zero =>
      simp at ha hb
      simp [pairsOf, ha, hb]
    | succ k =>
      rw [show 2 * (k + 1) = 2 * k + 1 + 1 by ring] at ha hb
      simp only [List.getElem?_cons_succ] at ha hb
      simpa [pairsOf] using ih ha hb

/-- R81: each carrier byte gives UNITS bits. -/
theorem length_readUnit (sch : Scheme) (v : Byte) : (readUnit sch v).length = units sch := by
  cases sch <;> rfl

/-- The bits of `n` carrier bytes are n·UNITS bits. -/
theorem length_readUnits {sch : Scheme} {m : Memory} {a n : Nat} {p : BitString}
    (h : readUnits sch m a n = some p) : p.length = n * units sch := by
  unfold readUnits at h
  split at h
  · simp at h
  · rename_i vs hvs
    obtain ⟨hl, -⟩ := Memory.readBytes_eq_some.mp hvs
    simp only [Option.some.injEq] at h
    subst h
    have : ∀ l : List Byte, (l.flatMap (readUnit sch)).length = l.length * units sch := by
      intro l
      induction l with
      | nil => simp
      | cons v rest ih =>
        rw [List.flatMap_cons, List.length_append, ih, length_readUnit, List.length_cons]
        ring
    rw [this, hl]

/-- The bits of carrier bytes cannot be read exactly when one of them was never written. -/
theorem readUnits_eq_none {sch : Scheme} {m : Memory} {a n : Nat} :
    readUnits sch m a n = none ↔ ∃ k < n, m.read (a + k) = none := by
  rw [← Memory.readBytes_eq_none]
  unfold readUnits
  cases m.readBytes a n <;> simp

/-- R90: bit `i` of the Basic stream is bit 0 of carrier byte `a + i`. -/
theorem getElem?_readUnits_basic {m : Memory} {a n : Nat} {p : BitString}
    (h : readUnits .basic m a n = some p) {i : Nat} (hi : i < n) :
    p[i]? = (m.read (a + i)).map fun v => v.getLsbD 0 := by
  unfold readUnits at h
  split at h
  · simp at h
  · rename_i vs hvs
    obtain ⟨hl, hk⟩ := Memory.readBytes_eq_some.mp hvs
    simp only [Option.some.injEq] at h
    subst h
    rw [hk i hi]
    have : ∀ l : List Byte, l.flatMap (readUnit .basic) = l.map fun v => v.getLsbD 0 := by
      intro l
      induction l with
      | nil => rfl
      | cons v rest ih => simp [readUnit, ih]
    rw [this, List.getElem?_map]

/-- R98: bits `2k` and `2k + 1` of the enhanced stream are bits 3 and 2 of carrier byte `a + k`. -/
theorem getElem?_readUnits_enhanced {m : Memory} {a n : Nat} {p : BitString}
    (h : readUnits .enhancedNoFlip m a n = some p) {k : Nat} (hk : k < n) :
    p[2 * k]? = ((m.read (a + k)).map fun v => v.getLsbD 3) ∧
    p[2 * k + 1]? = (m.read (a + k)).map fun v => v.getLsbD 2 := by
  unfold readUnits at h
  split at h
  · simp at h
  · rename_i vs hvs
    obtain ⟨hl, hr⟩ := Memory.readBytes_eq_some.mp hvs
    simp only [Option.some.injEq] at h
    subst h
    rw [hr k hk]
    have : ∀ (l : List Byte) (k : Nat),
        (l.flatMap (readUnit .enhancedNoFlip))[2 * k]? = (l[k]?.map fun v => v.getLsbD 3) ∧
        (l.flatMap (readUnit .enhancedNoFlip))[2 * k + 1]? = l[k]?.map fun v => v.getLsbD 2 := by
      intro l
      induction l with
      | nil => intro k; simp
      | cons v rest ih =>
        intro k
        cases k with
        | zero => simp [readUnit]
        | succ k =>
          rw [List.flatMap_cons, readUnit, show 2 * (k + 1) = 2 * k + 1 + 1 by ring]
          simpa using ih k
    exact this vs k

/-- R90: what ExtractB comes to. -/
theorem extractB_cases (n : Nat) (m : Memory) :
    (n < 32 ∧ extractB n m = .short) ∨
    (32 ≤ n ∧ readUnits .basic m 0 32 = none ∧ extractB n m = .unwritten) ∨
    ∃ h, 32 ≤ n ∧ readUnits .basic m 0 32 = some h ∧
      ((n - 32 < headerValue h ∧ extractB n m = .tooLong (headerValue h)) ∨
       (headerValue h ≤ n - 32 ∧ readUnits .basic m 32 (headerValue h) = none ∧ extractB n m = .unwritten) ∨
       ∃ p, headerValue h ≤ n - 32 ∧ readUnits .basic m 32 (headerValue h) = some p ∧
         extractB n m = .bits (headerValue h) p) := by
  unfold extractB
  by_cases hn : n < 32
  · exact .inl ⟨hn, if_pos hn⟩
  · rw [if_neg hn]
    cases h₁ : readUnits .basic m 0 32 with
    | none => exact .inr (.inl ⟨by omega, rfl, rfl⟩)
    | some h =>
      refine .inr (.inr ⟨h, by omega, rfl, ?_⟩)
      by_cases hl : n - 32 < headerValue h
      · exact .inl ⟨hl, if_pos hl⟩
      · simp only [if_neg hl]
        cases h₂ : readUnits .basic m 32 (headerValue h) with
        | none => exact .inr (.inl ⟨by omega, rfl, rfl⟩)
        | some p => exact .inr (.inr ⟨p, by omega, rfl, rfl⟩)

/-- R98: what ExtractE comes to. -/
theorem extractE_cases (n : Nat) (m : Memory) :
    (n < 16 ∧ extractE n m = .short) ∨
    (16 ≤ n ∧ readUnits .enhancedNoFlip m 0 16 = none ∧ extractE n m = .unwritten) ∨
    ∃ h, 16 ≤ n ∧ readUnits .enhancedNoFlip m 0 16 = some h ∧
      ((2 * (n - 16) < headerValue h ∧ extractE n m = .tooLong (headerValue h)) ∨
       (headerValue h ≤ 2 * (n - 16) ∧ readUnits .enhancedNoFlip m 16 (headerValue h / 2) = none ∧
         extractE n m = .unwritten) ∨
       ∃ p, headerValue h ≤ 2 * (n - 16) ∧ readUnits .enhancedNoFlip m 16 (headerValue h / 2) = some p ∧
         extractE n m = .bits (headerValue h) p) := by
  unfold extractE
  by_cases hn : n < 16
  · exact .inl ⟨hn, if_pos hn⟩
  · rw [if_neg hn]
    cases h₁ : readUnits .enhancedNoFlip m 0 16 with
    | none => exact .inr (.inl ⟨by omega, rfl, rfl⟩)
    | some h =>
      refine .inr (.inr ⟨h, by omega, rfl, ?_⟩)
      by_cases hl : 2 * (n - 16) < headerValue h
      · exact .inl ⟨hl, if_pos hl⟩
      · simp only [if_neg hl]
        cases h₂ : readUnits .enhancedNoFlip m 16 (headerValue h / 2) with
        | none => exact .inr (.inl ⟨by omega, rfl, rfl⟩)
        | some p => exact .inr (.inr ⟨p, by omega, rfl, rfl⟩)

end Sys2Proof.Machine
end

