-- ==== Sys2Proof/Laws/Stream.lean ====
section
/-!
SUPPORT. The datapath against the index formulas of the spec: what an extractor comes to in terms of the carrier's
stream bits, and what an embedding leaves in terms of the frame's bits.
-/

namespace Sys2Proof.Machine

/-- A written byte is its own value. -/
theorem Memory.read_eq_byteAt {m : Memory} {a : Nat} (h : (m.read a).isSome = true) :
    m.read a = some (m.byteAt a) := by
  obtain ⟨v, hv⟩ := Option.isSome_iff_exists.mp h
  simp [Memory.byteAt, hv]

/-- A byte that is not written has no value to read. -/
theorem Memory.not_writtenIn_iff {m : Memory} {a n : Nat} :
    ¬ m.writtenIn a n ↔ ∃ k < n, m.read (a + k) = none := by
  simp [Memory.writtenIn]

/-- Written bytes are read in order. -/
theorem Memory.readBytes_of_writtenIn {m : Memory} {a n : Nat} (h : m.writtenIn a n) :
    m.readBytes a n = some ((List.range n).map fun k => m.byteAt (a + k)) := by
  refine Memory.readBytes_eq_some.mpr ⟨by simp, fun k hk => ?_⟩
  rw [Memory.read_eq_byteAt (h k hk)]
  simp [hk]

/-- Bytes of which one was never written are not read. -/
theorem Memory.readBytes_of_not_writtenIn {m : Memory} {a n : Nat} (h : ¬ m.writtenIn a n) :
    m.readBytes a n = none :=
  Memory.readBytes_eq_none.mpr (Memory.not_writtenIn_iff.mp h)

/-- The message of a state whose MBUF[0..L) is written is what ENC reads. -/
theorem State.readBytes_message {s : State} (h : s.mbuf.writtenIn 0 s.messageLen) :
    s.mbuf.readBytes 0 s.messageLen = some s.message := by
  rw [Memory.readBytes_of_writtenIn h]
  simp [State.message]

@[simp] theorem State.length_message (s : State) : s.message.length = s.messageLen := by
  simp [State.message]

/-- Byte `k` of the message. -/
theorem State.getElem?_message {s : State} {k : Nat} (h : k < s.messageLen) :
    s.message[k]? = some (s.mbuf.byteAt k) := by
  simp [State.message, h]

/-- R72: the frame's bits are those of the index formula. -/
theorem getElem?_frame_eq_frameBit (msg : List Byte) {i : Nat} (h : i < 32 + 8 * msg.length) :
    (frame msg)[i]? = some (frameBit msg i) := getElem?_frame msg h

/-- R75: the value of bits as the sum of its weights. -/
theorem bitsValue_eq_sum (bits : BitString) :
    bitsValue bits = ((List.range bits.length).map fun i =>
      2 ^ (bits.length - 1 - i) * (bits.getD i false).toNat).sum := by
  induction bits with
  | nil => rfl
  | cons b rest ih =>
    have hrest : (List.range rest.length).map (fun i =>
        2 ^ (rest.length + 1 - 1 - (i + 1)) * ((b :: rest).getD (i + 1) false).toNat) =
        (List.range rest.length).map fun i => 2 ^ (rest.length - 1 - i) * (rest.getD i false).toNat := by
      refine List.map_congr_left fun i _ => ?_
      rw [show rest.length + 1 - 1 - (i + 1) = rest.length - 1 - i by omega]
      simp
    rw [bitsValue_cons, ih, List.length_cons, List.range_succ_eq_map, List.map_cons, List.map_map]
    simp only [Function.comp_def, Nat.succ_eq_add_one, List.sum_cons]
    rw [hrest]
    simp [Nat.mul_comm]

/-- Bits that agree with `f` have the sum of `f`'s weights as their value. -/
theorem bitsValue_of_getD {bits : BitString} {n : Nat} {f : Nat → Bool} (hl : bits.length = n)
    (hf : ∀ i < n, bits.getD i false = f i) :
    bitsValue bits = ((List.range n).map fun i => 2 ^ (n - 1 - i) * (f i).toNat).sum := by
  rw [bitsValue_eq_sum, hl]
  congr 1
  refine List.map_congr_left fun i hi => ?_
  rw [hf i (List.mem_range.mp hi)]

/-- R105: EnhancedFlip reads as EnhancedNoFlip does. -/
theorem readUnits_flip (m : Memory) (a n : Nat) :
    readUnits .enhancedFlip m a n = readUnits .enhancedNoFlip m a n := rfl

/-- R81: bit `i` of the units from carrier byte `a` on is stream bit a·UNITS + i of the carrier. -/
theorem getD_readUnits {sch : Scheme} {m : Memory} {a n : Nat} {p : BitString}
    (h : readUnits sch m a n = some p) {i : Nat} (hi : i < n * units sch) :
    p.getD i false = streamBit sch m (a * units sch + i) := by
  have henh : ∀ (sch : Scheme), sch ≠ .basic → readUnits .enhancedNoFlip m a n = some p → i < n * 2 →
      p.getD i false = (m.byteAt ((a * 2 + i) / 2)).getLsbD (3 - (a * 2 + i) % 2) := by
    intro sch _ h hi
    have hw : ∀ k < n, (m.read (a + k)).isSome = true := by
      have : ¬ ∃ k < n, m.read (a + k) = none := fun hn => by simp [readUnits_eq_none.mpr hn] at h
      simpa [← Option.isSome_iff_ne_none] using this
    obtain ⟨h₀, h₁⟩ := getElem?_readUnits_enhanced h (k := i / 2) (by omega)
    rw [Memory.read_eq_byteAt (hw (i / 2) (by omega))] at h₀ h₁
    rw [List.getD_eq_getElem?_getD]
    rcases Nat.mod_two_eq_zero_or_one i with hm | hm
    · rw [show i = 2 * (i / 2) by omega, h₀]
      rw [show (a * 2 + 2 * (i / 2)) / 2 = a + i / 2 by omega,
        show (a * 2 + 2 * (i / 2)) % 2 = 0 by omega]
      rfl
    · rw [show i = 2 * (i / 2) + 1 by omega, h₁]
      rw [show (a * 2 + (2 * (i / 2) + 1)) / 2 = a + i / 2 by omega,
        show (a * 2 + (2 * (i / 2) + 1)) % 2 = 1 by omega]
      rfl
  cases sch with
  | basic =>
    simp only [units, Nat.mul_one] at hi ⊢
    have hw : (m.read (a + i)).isSome = true := by
      by_contra hn
      have : readUnits .basic m a n = none :=
        readUnits_eq_none.mpr ⟨i, hi, by simpa using hn⟩
      simp [this] at h
    rw [List.getD_eq_getElem?_getD, getElem?_readUnits_basic h hi, Memory.read_eq_byteAt hw]
    rfl
  | enhancedFlip => exact henh .enhancedFlip (by decide) h hi
  | enhancedNoFlip => exact henh .enhancedNoFlip (by decide) h hi

/-- R75: the header by its sum. -/
theorem streamHeader_eq (sch : Scheme) (m : Memory) :
    streamHeader sch m = ((List.range 32).map fun i => 2 ^ (31 - i) * (streamBit sch m i).toNat).sum := by
  unfold streamHeader
  rfl

/-- R76: a message byte by its sum. -/
theorem streamByte_eq (sch : Scheme) (m : Memory) (k : Nat) :
    streamByte sch m k = BitVec.ofNat 8
      ((List.range 8).map fun j => 2 ^ (7 - j) * (streamBit sch m (32 + 8 * k + j)).toNat).sum := by
  unfold streamByte
  rfl

/-- R75: the header that an extractor reads is the one the carrier holds. -/
theorem headerValue_readUnits {sch : Scheme} {m : Memory} {h : BitString}
    (hr : readUnits sch m 0 (headerBytes sch) = some h) : headerValue h = streamHeader sch m := by
  have hb : headerBytes sch * units sch = 32 := by cases sch <;> rfl
  have hl : h.length = 32 := by rw [length_readUnits hr, hb]
  have hf : ∀ i < 32, h.getD i false = streamBit sch m i := fun i hi => by
    rw [getD_readUnits hr (by rw [hb]; exact hi), Nat.zero_mul, Nat.zero_add]
  rw [headerValue, streamHeader_eq, bitsValue_of_getD hl hf]

/-- A carrier's header fits 32 bits. -/
theorem streamHeader_lt (sch : Scheme) (m : Memory) : streamHeader sch m < 2 ^ 32 := by
  have := bitsValue_lt ((List.range 32).map fun i => streamBit sch m i)
  rw [bitsValue_of_getD (n := 32) (f := fun i => streamBit sch m i) (by simp)
    (fun i hi => by simp [List.getD_eq_getElem?_getD, hi]), List.length_map, List.length_range] at this
  rw [streamHeader_eq]
  exact this

/-- The units of a run of carrier bytes can be read exactly when all are written. -/
theorem readUnits_of_writtenIn {sch : Scheme} {m : Memory} {a n : Nat} (h : m.writtenIn a n) :
    ∃ p, readUnits sch m a n = some p := by
  unfold readUnits
  rw [Memory.readBytes_of_writtenIn h]
  exact ⟨_, rfl⟩

theorem readUnits_of_not_writtenIn {sch : Scheme} {m : Memory} {a n : Nat} (h : ¬ m.writtenIn a n) :
    readUnits sch m a n = none :=
  readUnits_eq_none.mpr (Memory.not_writtenIn_iff.mp h)

/-- R90, R98 in one form: the extractor of a scheme. -/
theorem extract_eq (sch : Scheme) (n : Nat) (m : Memory) :
    extract sch n m =
      if n < headerBytes sch then .short
      else match readUnits sch m 0 (headerBytes sch) with
        | none => .unwritten
        | some h =>
          if headerLimit sch n < headerValue h then .tooLong (headerValue h)
          else match readUnits sch m (headerBytes sch) (payloadBytes sch (headerValue h)) with
            | none => .unwritten
            | some p => .bits (headerValue h) p := by
  cases sch <;> rfl

/-- R90, R98, R99: everything an extractor can come to, by what the carrier holds. -/
theorem extract_cases (sch : Scheme) (n : Nat) (m : Memory) :
    (n < headerBytes sch ∧ extract sch n m = .short) ∨
    (headerBytes sch ≤ n ∧
      ((¬ m.writtenIn 0 (headerBytes sch) ∧ extract sch n m = .unwritten) ∨
       (m.writtenIn 0 (headerBytes sch) ∧
         ((headerLimit sch n < streamHeader sch m ∧ extract sch n m = .tooLong (streamHeader sch m)) ∨
          (streamHeader sch m ≤ headerLimit sch n ∧
            ((¬ m.writtenIn (headerBytes sch) (payloadBytes sch (streamHeader sch m)) ∧
               extract sch n m = .unwritten) ∨
             (m.writtenIn (headerBytes sch) (payloadBytes sch (streamHeader sch m)) ∧
               ∃ p, extract sch n m = .bits (streamHeader sch m) p ∧
                 p.length = payloadBytes sch (streamHeader sch m) * units sch ∧
                 ∀ i < p.length, p.getD i false = streamBit sch m (32 + i)))))))) := by
  rw [extract_eq]
  by_cases hn : n < headerBytes sch
  · exact .inl ⟨hn, if_pos hn⟩
  · refine .inr ⟨by omega, ?_⟩
    rw [if_neg hn]
    by_cases hw : m.writtenIn 0 (headerBytes sch)
    · obtain ⟨h, hh⟩ := readUnits_of_writtenIn (sch := sch) hw
      refine .inr ⟨hw, ?_⟩
      rw [hh]
      simp only [headerValue_readUnits hh]
      by_cases hl : headerLimit sch n < streamHeader sch m
      · exact .inl ⟨hl, if_pos hl⟩
      · refine .inr ⟨by omega, ?_⟩
        rw [if_neg hl]
        by_cases hp : m.writtenIn (headerBytes sch) (payloadBytes sch (streamHeader sch m))
        · obtain ⟨p, hpp⟩ := readUnits_of_writtenIn (sch := sch) hp
          refine .inr ⟨hp, p, by rw [hpp], length_readUnits hpp, fun i hi => ?_⟩
          rw [length_readUnits hpp] at hi
          rw [getD_readUnits hpp hi]
          congr 2
          cases sch <;> rfl
        · exact .inl ⟨hp, by rw [readUnits_of_not_writtenIn hp]⟩
    · exact .inl ⟨hw, by rw [readUnits_of_not_writtenIn hw]⟩

/-- R88, R96, R102: carrier byte `k` after the embedding of a message's frame. -/
def embeddedByte (sch : Scheme) (msg : List Byte) (k : Nat) (v : Byte) : Byte :=
  match sch with
  | .basic => writeUnitB v (frameBit msg k)
  | .enhancedFlip =>
    writeUnitE (flipFor v (frameBit msg (2 * k)) (frameBit msg (2 * k + 1)))
      (frameBit msg (2 * k)) (frameBit msg (2 * k + 1))
  | .enhancedNoFlip => writeUnitE v (frameBit msg (2 * k)) (frameBit msg (2 * k + 1))

/-- The byte functions that the embedding of a frame applies, one a carrier byte. -/
theorem embed_eq_rewriteBytes (sch : Scheme) (msg : List Byte) :
    ∃ fs : List (Byte → Byte), (∀ m, embed sch (frame msg) m = rewriteBytes fs 0 m) ∧
      fs.length = (32 + 8 * msg.length) / units sch ∧
      ∀ k < fs.length, fs[k]? = some (embeddedByte sch msg k) := by
  have hpair : ∀ k < (32 + 8 * msg.length) / 2,
      (pairsOf (frame msg))[k]? = some (frameBit msg (2 * k), frameBit msg (2 * k + 1)) := fun k hk =>
    getElem?_pairsOf _ (getElem?_frame_eq_frameBit msg (by omega)) (getElem?_frame_eq_frameBit msg (by omega))
  cases sch with
  | basic =>
    refine ⟨_, fun _ => rfl, by simp [units], fun k hk => ?_⟩
    simp only [List.length_map, length_frame] at hk
    rw [List.getElem?_map, getElem?_frame_eq_frameBit msg hk]
    rfl
  | enhancedFlip =>
    refine ⟨_, fun _ => rfl, by simp [units], fun k hk => ?_⟩
    simp only [List.length_map, length_pairsOf, length_frame] at hk
    rw [List.getElem?_map, hpair k hk]
    rfl
  | enhancedNoFlip =>
    refine ⟨_, fun _ => rfl, by simp [units], fun k hk => ?_⟩
    simp only [List.length_map, length_pairsOf, length_frame] at hk
    rw [List.getElem?_map, hpair k hk]
    rfl

/-- Everything the embedding of a frame can come to. -/
theorem embed_cases (sch : Scheme) (msg : List Byte) (m : Memory) :
    (¬ m.writtenIn 0 ((32 + 8 * msg.length) / units sch) ∧ embed sch (frame msg) m = none) ∨
    (m.writtenIn 0 ((32 + 8 * msg.length) / units sch) ∧ ∃ m', embed sch (frame msg) m = some m' ∧
      (∀ k < (32 + 8 * msg.length) / units sch,
        m'.read k = some (embeddedByte sch msg k (m.byteAt k))) ∧
      (∀ k, (32 + 8 * msg.length) / units sch ≤ k → m'.read k = m.read k) ∧
      (m.wf → m'.wf) ∧ ∀ c ∈ m', ∃ v, (c.1, v) ∈ m) := by
  obtain ⟨fs, he, hl, hf⟩ := embed_eq_rewriteBytes sch msg
  rw [he, ← hl]
  by_cases hw : m.writtenIn 0 fs.length
  · refine .inr ⟨hw, ?_⟩
    cases hm : rewriteBytes fs 0 m with
    | none =>
      obtain ⟨i, hi, hn⟩ := rewriteBytes_eq_none.mp hm
      exact absurd (hw i hi) (by rw [hn]; simp)
    | some m' =>
      refine ⟨m', rfl, fun k hk => ?_, fun k hk => ?_, wf_rewriteBytes hm, fun c => mem_rewriteBytes hm⟩
      · rw [read_rewriteBytes hm, if_pos ⟨by omega, by omega⟩, Nat.sub_zero, hf k hk,
          Memory.read_eq_byteAt (by simpa using hw k hk)]
        rfl
      · rw [read_rewriteBytes hm, if_neg (by omega)]
  · exact .inl ⟨hw, rewriteBytes_eq_none.mpr (Memory.not_writtenIn_iff.mp hw)⟩

/-- R82: a Basic unit just written is read back. -/
theorem writeUnitB_bit : ∀ (v : Byte) (a : Bool), (writeUnitB v a).getLsbD 0 = a := by decide +kernel

/-- R82: an enhanced unit just written is read back. -/
theorem writeUnitE_bits : ∀ (v : Byte) (a b : Bool),
    (writeUnitE v a b).getLsbD 3 = a ∧ (writeUnitE v a b).getLsbD 2 = b := by decide +kernel

/-- R82: Basic writes bit 0 alone. -/
theorem writeUnitB_keep : ∀ (v : Byte) (a : Bool), writeUnitB v a &&& 0xFE = v &&& 0xFE := by decide +kernel

/-- R82: an enhanced unit is bits 2 and 3 alone. -/
theorem writeUnitE_keep : ∀ (v : Byte) (a b : Bool), writeUnitE v a b &&& 0xF3 = v &&& 0xF3 := by
  decide +kernel

/-- R103: the perturbation touches bits 0 and 1 alone. -/
theorem flipFor_keep : ∀ (v : Byte) (a b : Bool), flipFor v a b &&& 0xFC = v &&& 0xFC := by decide +kernel

/-- R95: the sum of weights and the table give one pattern. -/
theorem pairPattern_eq (a b : Bool) : pairPattern a b = targetPattern a b := by
  cases a <;> cases b <;> decide

/-- A carrier that holds the embedded bytes of a frame holds the frame's bits. -/
theorem streamBit_of_embedded {sch : Scheme} {m m' : Memory} {msg : List Byte}
    (h : ∀ k < (32 + 8 * msg.length) / units sch, m'.read k = some (embeddedByte sch msg k (m.byteAt k)))
    {i : Nat} (hi : i < 32 + 8 * msg.length) : streamBit sch m' i = frameBit msg i := by
  have henh : ∀ (f : Nat → Byte), (∀ k, ∃ v, f k = writeUnitE v (frameBit msg (2 * k)) (frameBit msg (2 * k + 1))) →
      (∀ k < (32 + 8 * msg.length) / 2, m'.read k = some (f k)) →
      (m'.byteAt (i / 2)).getLsbD (3 - i % 2) = frameBit msg i := by
    intro f hf h
    obtain ⟨v, hv⟩ := hf (i / 2)
    simp only [Memory.byteAt, h (i / 2) (by omega), Option.getD_some, hv]
    rcases Nat.mod_two_eq_zero_or_one i with hm | hm
    · rw [hm, (writeUnitE_bits _ _ _).1, show 2 * (i / 2) = i by omega]
    · rw [hm, (writeUnitE_bits _ _ _).2, show 2 * (i / 2) + 1 = i by omega]
  cases sch with
  | basic =>
    simp only [units, Nat.div_one] at h
    simp only [streamBit, Memory.byteAt, h i hi, Option.getD_some, embeddedByte, writeUnitB_bit]
  | enhancedFlip => exact henh _ (fun _ => ⟨_, rfl⟩) h
  | enhancedNoFlip => exact henh _ (fun _ => ⟨_, rfl⟩) h

/-- R73, R75: the header bits of a frame sum to 8·L. -/
theorem sum_headerBits {msg : List Byte} (hl : msg.length ≤ 2 ^ 29 - 1) :
    ((List.range 32).map fun i => 2 ^ (31 - i) * (frameBit msg i).toNat).sum = 8 * msg.length := by
  rw [← headerValue_headerOf hl, headerValue, bitsValue_of_getD (n := 32) (f := frameBit msg) (by simp)]
  intro i hi
  rw [List.getD_eq_getElem?_getD, getElem?_headerOf _ hi]
  simp [frameBit, hi]

/-- The header of a carrier that holds the embedded bytes of a frame. -/
theorem streamHeader_of_embedded {sch : Scheme} {m m' : Memory} {msg : List Byte} (hl : msg.length ≤ 2 ^ 29 - 1)
    (h : ∀ k < (32 + 8 * msg.length) / units sch, m'.read k = some (embeddedByte sch msg k (m.byteAt k))) :
    streamHeader sch m' = 8 * msg.length := by
  rw [streamHeader_eq, ← sum_headerBits hl]
  congr 1
  refine List.map_congr_left fun i hi => ?_
  have := List.mem_range.mp hi
  rw [streamBit_of_embedded h (by omega)]

/-- R77: the weighted bits of a byte sum to the byte. -/
theorem sum_byteBits (v : Byte) :
    BitVec.ofNat 8 ((List.range 8).map fun j => 2 ^ (7 - j) * (v.getLsbD (7 - j)).toNat).sum = v := by
  have h := bitsValue_bitsMsbFirst 8 v
  rw [bitsValue_of_getD (n := 8) (f := fun j => v.getLsbD (7 - j)) (by simp)] at h
  · rw [h]
    simp
  · intro i hi
    rw [List.getD_eq_getElem?_getD, getElem?_bitsMsbFirst _ hi]
    simp

/-- The message bytes of a carrier that holds the embedded bytes of a frame. -/
theorem streamByte_of_embedded {sch : Scheme} {m m' : Memory} {msg : List Byte}
    (h : ∀ k < (32 + 8 * msg.length) / units sch, m'.read k = some (embeddedByte sch msg k (m.byteAt k)))
    {k : Nat} (hk : k < msg.length) : streamByte sch m' k = msg.getD k 0 := by
  rw [streamByte_eq, ← sum_byteBits (msg.getD k 0)]
  congr 2
  refine List.map_congr_left fun j hj => ?_
  have := List.mem_range.mp hj
  rw [streamBit_of_embedded h (by omega), frameBit, if_neg (by omega),
    show (32 + 8 * k + j - 32) / 8 = k by omega, show (32 + 8 * k + j - 32) % 8 = j by omega]

/-- Buffers that agree below `n` give the same bytes there. -/
theorem Memory.readBytes_congr {n : Nat} {m m' : Memory} (h : ∀ a < n, m.read a = m'.read a) {a k : Nat}
    (hk : a + k ≤ n) : m.readBytes a k = m'.readBytes a k := by
  induction k generalizing a with
  | zero => rfl
  | succ k ih =>
    unfold Memory.readBytes
    rw [h a (by omega), ih (by omega)]

/-- Carriers that agree below `n` give the same units there. -/
theorem readUnits_congr {n : Nat} {m m' : Memory} (h : ∀ a < n, m.read a = m'.read a) {sch : Scheme} {a k : Nat}
    (hk : a + k ≤ n) : readUnits sch m a k = readUnits sch m' a k := by
  unfold readUnits
  rw [Memory.readBytes_congr h hk]

/-- R39: an extractor reads its carrier below N alone. -/
theorem extract_congr {n : Nat} {m m' : Memory} (h : ∀ a < n, m.read a = m'.read a) (sch : Scheme) :
    extract sch n m = extract sch n m' := by
  rw [extract_eq, extract_eq]
  split_ifs with hn
  · rfl
  rw [readUnits_congr h (by omega)]
  split
  · rfl
  · split_ifs with hl
    · rfl
    rw [readUnits_congr h]
    cases sch <;> simp only [headerLimit, payloadBytes, headerBytes] at * <;> omega

/-- R39: a rewrite of carriers that agree below `n` comes to the same there. -/
theorem rewriteBytes_congr {n : Nat} {m m' : Memory} (h : ∀ a < n, m.read a = m'.read a) (fs : List (Byte → Byte))
    {k : Nat} (hk : k + fs.length ≤ n) :
    (rewriteBytes fs k m = none ∧ rewriteBytes fs k m' = none) ∨
    ∃ q q', rewriteBytes fs k m = some q ∧ rewriteBytes fs k m' = some q' ∧ ∀ a < n, q.read a = q'.read a := by
  induction fs generalizing m m' k with
  | nil => exact .inr ⟨m, m', rfl, rfl, h⟩
  | cons f rest ih =>
    simp only [List.length_cons] at hk
    unfold rewriteBytes
    rw [h k (by omega)]
    cases m'.read k with
    | none => exact .inl ⟨rfl, rfl⟩
    | some v =>
      refine ih (fun a ha => ?_) (by omega)
      rw [Memory.read_write, Memory.read_write, h a ha]

end Sys2Proof.Machine
end

