-- ==== Sys2Proof/Laws/Codec.lean ====
section
/-!
SUPPORT. Everything that each command can do: the common sequences by cases, and each command as a sequence around
which the engine step completes.
-/

namespace Sys2Proof.Machine

@[simp] theorem Result.finish_ends (e : Err) (s' s : State) :
    (Result.ends e s').finish s = .next (s'.complete e) := rfl

@[simp] theorem Result.finish_faults (r : Fault) (s : State) :
    (Result.faults r).finish s = .next (s.setFault r) := rfl

/-- R121: every code is at most 6. -/
theorem Err.code_le (e : Err) : e.code.toNat ≤ 6 := by cases e <;> decide

/-- R121: only OK has code 0. -/
theorem Err.code_eq_zero {e : Err} : e.code = 0 ↔ e = .ok := by cases e <;> decide

theorem exec_nop (s : State) : exec .nop s = .next (s.complete .ok) := rfl

theorem exec_encOf (sch : Scheme) (s : State) : exec (encOf sch) s = (encodeSeq sch s).finish s := by
  cases sch <;> rfl

theorem exec_decOf (sch : Scheme) (s : State) : exec (decOf sch) s = (decodeSeq sch s).finish s := by
  cases sch <;> rfl

theorem exec_capOf (sch : Scheme) (s : State) : exec (capOf sch) s = (capSeq sch s).finish s := by
  cases sch <;> rfl

/-- Every command is NOP or the ENC, DEC or CAP of a scheme (R67). -/
theorem Instr.kinds (i : Instr) :
    i = .nop ∨ ∃ sch, i = encOf sch ∨ i = decOf sch ∨ i = capOf sch := by
  cases i with
  | nop => exact .inl rfl
  | encB => exact .inr ⟨.basic, .inl rfl⟩
  | encEf => exact .inr ⟨.enhancedFlip, .inl rfl⟩
  | encEn => exact .inr ⟨.enhancedNoFlip, .inl rfl⟩
  | decB => exact .inr ⟨.basic, .inr (.inl rfl)⟩
  | decEf => exact .inr ⟨.enhancedFlip, .inr (.inl rfl)⟩
  | decEn => exact .inr ⟨.enhancedNoFlip, .inr (.inl rfl)⟩
  | capB => exact .inr ⟨.basic, .inr (.inr rfl)⟩
  | capEf => exact .inr ⟨.enhancedFlip, .inr (.inr rfl)⟩
  | capEn => exact .inr ⟨.enhancedNoFlip, .inr (.inr rfl)⟩

/-- R116: everything ENC can come to, by its operands. -/
theorem encodeSeq_cases (sch : Scheme) (s : State) :
    ((s.carrierTooLong ∨ s.messageTooLong) ∧ encodeSeq sch s = .ends .range s) ∨
    (¬ s.carrierTooLong ∧ ¬ s.messageTooLong ∧
      ((s.carrierLen * units sch < 32 + 8 * s.messageLen ∧ encodeSeq sch s = .ends .capacity s) ∨
       (32 + 8 * s.messageLen ≤ s.carrierLen * units sch ∧
         (((¬ s.mbuf.writtenIn 0 s.messageLen ∨
              ¬ s.cbuf.writtenIn 0 ((32 + 8 * s.messageLen) / units sch)) ∧
             encodeSeq sch s = .faults .uninitRead) ∨
          (s.encReady sch ∧ ∃ m, encodeSeq sch s = .ends .ok { s with cbuf := m } ∧
            (∀ k < (32 + 8 * s.messageLen) / units sch,
              m.read k = some (embeddedByte sch s.message k (s.cbuf.byteAt k))) ∧
            (∀ k, (32 + 8 * s.messageLen) / units sch ≤ k → m.read k = s.cbuf.read k) ∧
            (s.cbuf.wf → m.wf) ∧ ∀ c ∈ m, ∃ v, (c.1, v) ∈ s.cbuf))))) := by
  unfold encodeSeq
  by_cases hr : s.carrierTooLong ∨ s.messageTooLong
  · exact .inl ⟨hr, if_pos hr⟩
  · refine .inr ⟨fun h => hr (.inl h), fun h => hr (.inr h), ?_⟩
    rw [if_neg hr]
    by_cases hc : s.carrierLen * units sch < 32 + 8 * s.messageLen
    · exact .inl ⟨hc, if_pos hc⟩
    · refine .inr ⟨by omega, ?_⟩
      rw [if_neg (show ¬ capacityBits s.carrierLen sch < totalBits s.messageLen from hc)]
      by_cases hm : s.mbuf.writtenIn 0 s.messageLen
      · rw [State.readBytes_message hm]
        have he := embed_cases sch s.message s.cbuf
        rw [State.length_message] at he
        rcases he with ⟨hw, he⟩ | ⟨hw, m, he, h⟩
        · exact .inl ⟨.inr hw, by simp only [he]⟩
        · exact .inr ⟨⟨⟨by omega, by omega, hm, hw⟩, by omega⟩, m, by simp only [he], h⟩
      · exact .inl ⟨.inl hm, by rw [Memory.readBytes_of_not_writtenIn hm]⟩

/-- R76: the bytes that Parse makes of a payload are those the carrier holds. -/
theorem getElem?_groupBytes_stream {sch : Scheme} {m : Memory} {p : BitString} {n : Nat}
    (hl : 8 * n ≤ p.length) (hb : ∀ i < p.length, p.getD i false = streamBit sch m (32 + i)) {k : Nat} (hk : k < n) :
    (groupBytes p n)[k]? = some (streamByte sch m k) := by
  have h8 : ((p.drop (8 * k)).take 8).length = 8 := by
    rw [List.length_take, List.length_drop]
    omega
  have hf : ∀ j < 8, ((p.drop (8 * k)).take 8).getD j false = streamBit sch m (32 + 8 * k + j) := by
    intro j hj
    rw [Nat.add_assoc, ← hb (8 * k + j) (by omega)]
    simp only [List.getD_eq_getElem?_getD]
    rw [List.getElem?_take_of_lt hj, List.getElem?_drop]
  rw [getElem?_groupBytes _ hk, bitsValue_of_getD h8 hf, streamByte_eq]

/-- R117: everything DEC can come to, by what the carrier holds. -/
theorem decodeSeq_cases (sch : Scheme) (s : State) :
    (s.carrierTooLong ∧ decodeSeq sch s = .ends .range s) ∨
    (¬ s.carrierTooLong ∧
      ((s.carrierLen < headerBytes sch ∧ decodeSeq sch s = .ends .invalidHeader s) ∨
       (headerBytes sch ≤ s.carrierLen ∧ ¬ s.cbuf.writtenIn 0 (headerBytes sch) ∧
         decodeSeq sch s = .faults .uninitRead) ∨
       (s.headerReady sch ∧
         ((headerLimit sch s.carrierLen < streamHeader sch s.cbuf ∧
             decodeSeq sch s = .ends .invalidHeader (s.withHdr (streamHeader sch s.cbuf))) ∨
          (streamHeader sch s.cbuf ≤ headerLimit sch s.carrierLen ∧
             ¬ s.cbuf.writtenIn (headerBytes sch) (payloadBytes sch (streamHeader sch s.cbuf)) ∧
             decodeSeq sch s = .faults .uninitRead) ∨
          (s.payloadReady sch ∧
            ((payloadBytes sch (streamHeader sch s.cbuf) * units sch < streamHeader sch s.cbuf ∧
                decodeSeq sch s = .ends .truncated (s.withHdr (streamHeader sch s.cbuf))) ∨
             (streamHeader sch s.cbuf ≤ payloadBytes sch (streamHeader sch s.cbuf) * units sch ∧
                streamHeader sch s.cbuf % 8 ≠ 0 ∧
                decodeSeq sch s = .ends .notByteAligned (s.withHdr (streamHeader sch s.cbuf))) ∨
             (streamHeader sch s.cbuf ≤ payloadBytes sch (streamHeader sch s.cbuf) * units sch ∧
                streamHeader sch s.cbuf % 8 = 0 ∧ ∃ out : List Byte,
                  decodeSeq sch s = .ends .ok
                    ((s.withHdr (streamHeader sch s.cbuf)).deliver (streamHeader sch s.cbuf) out) ∧
                  out.length = streamHeader sch s.cbuf / 8 ∧
                  ∀ k < out.length, out[k]? = some (streamByte sch s.cbuf k)))))))) := by
  unfold decodeSeq
  by_cases hr : s.carrierTooLong
  · exact .inl ⟨hr, if_pos hr⟩
  · refine .inr ⟨hr, ?_⟩
    rw [if_neg hr]
    rcases extract_cases sch s.carrierLen s.cbuf with
      ⟨hn, he⟩ | ⟨hn, ⟨hw, he⟩ | ⟨hw, ⟨hl, he⟩ | ⟨hl, ⟨hp, he⟩ | ⟨hp, p, he, hlen, hbits⟩⟩⟩⟩
    · exact .inl ⟨hn, by simp only [he]⟩
    · exact .inr (.inl ⟨hn, hw, by simp only [he]⟩)
    · exact .inr (.inr ⟨⟨by omega, hn, hw⟩, .inl ⟨hl, by simp only [he]⟩⟩)
    · exact .inr (.inr ⟨⟨by omega, hn, hw⟩, .inr (.inl ⟨hl, hp, by simp only [he]⟩)⟩)
    · refine .inr (.inr ⟨⟨by omega, hn, hw⟩, .inr (.inr ⟨⟨⟨by omega, hn, hw⟩, hl, hp⟩, ?_⟩)⟩)
      simp only [he, parse_eq, hlen]
      by_cases ht : payloadBytes sch (streamHeader sch s.cbuf) * units sch < streamHeader sch s.cbuf
      · exact .inl ⟨ht, by rw [if_pos ht]⟩
      · refine .inr ?_
        rw [if_neg ht]
        by_cases ha : streamHeader sch s.cbuf % 8 ≠ 0
        · exact .inl ⟨by omega, ha, by rw [if_pos ha]⟩
        · refine .inr ⟨by omega, by omega, groupBytes p (streamHeader sch s.cbuf / 8), by rw [if_neg ha],
            length_groupBytes _ _, fun k hk => ?_⟩
          rw [length_groupBytes] at hk
          exact getElem?_groupBytes_stream (by omega) hbits hk

/-- R111: everything CAP can come to. -/
theorem capSeq_cases (sch : Scheme) (s : State) :
    (s.carrierTooLong ∧ capSeq sch s = .ends .range s) ∨
    (¬ s.carrierTooLong ∧
      capSeq sch s = .ends .ok { s with cap := BitVec.ofNat 32 (s.carrierLen * units sch) }) := by
  unfold capSeq
  by_cases hr : s.carrierTooLong
  · exact .inl ⟨hr, if_pos hr⟩
  · exact .inr ⟨hr, if_neg hr⟩

/-- R110: every command completes or sets FAULT to UNINIT_READ. -/
theorem exec_completes_or_faults (i : Instr) (s : State) :
    (∃ e s', exec i s = .next (State.complete s' e) ∧ s'.fault = s.fault) ∨
    exec i s = .next (s.setFault .uninitRead) := by
  rcases Instr.kinds i with rfl | ⟨sch, rfl | rfl | rfl⟩
  · exact .inl ⟨.ok, s, rfl, rfl⟩
  · rw [exec_encOf]
    rcases encodeSeq_cases sch s with ⟨_, h⟩ | ⟨_, _, ⟨_, h⟩ | ⟨_, ⟨_, h⟩ | ⟨_, m, h, _⟩⟩⟩ <;> rw [h]
    all_goals first | exact .inr rfl | exact .inl ⟨_, _, rfl, rfl⟩
  · rw [exec_decOf]
    rcases decodeSeq_cases sch s with
      ⟨_, h⟩ | ⟨_, ⟨_, h⟩ | ⟨_, _, h⟩ | ⟨_, ⟨_, h⟩ | ⟨_, _, h⟩ | ⟨_, ⟨_, h⟩ | ⟨_, _, h⟩ | ⟨_, _, _, h, _⟩⟩⟩⟩ <;>
      rw [h]
    all_goals first | exact .inr rfl | exact .inl ⟨_, _, rfl, rfl⟩
  · rw [exec_capOf]
    rcases capSeq_cases sch s with ⟨_, h⟩ | ⟨_, h⟩ <;> rw [h]
    all_goals exact .inl ⟨_, _, rfl, rfl⟩

end Sys2Proof.Machine
end

