-- ==== Sys2Proof/Laws/Decode.lean ====
section
/-!
SUPPORT. The fields of a command word.
-/

namespace Sys2Proof

/-- R63: the fields are the whole word. -/
theorem word_fieldsOf (w : Word) : (fieldsOf w).word = w := by
  unfold fieldsOf Cmd32.word
  ext i hi
  simp only [BitVec.getElem_append, BitVec.getElem_extractLsb']
  split_ifs <;> (rw [← BitVec.getLsbD_eq_getElem hi]; congr 1; try omega)

/-- R63: the fields of a word by value. -/
theorem toNat_fieldsOf (w : Word) :
    (fieldsOf w).op.toNat = w.toNat % 16 ∧ (fieldsOf w).sch.toNat = w.toNat / 16 % 4 ∧
      (fieldsOf w).rsv.toNat = w.toNat / 64 := by
  have := w.isLt
  refine ⟨by simp [fieldsOf], by simp [fieldsOf, Nat.shiftRight_eq_div_pow], ?_⟩
  simp [fieldsOf, Nat.shiftRight_eq_div_pow]
  omega

end Sys2Proof
end

