-- ==== Sys2Proof/Laws/PerInstr.lean ====
section
/-!
SUPPORT. One lemma a command about the command as syntax: it is well formed, its fields are legal, and its word has
those fields.
-/

namespace Sys2Proof.Laws.CommandWord

/-- R63, R66, R69: a command is well formed, its fields are those of a legal word, its word holds exactly them and
has no bit above 5, and it stands in the table. -/
def Statement (i : Instr) : Prop :=
  i.wf = true ∧ i.fields.wf ∧ fieldsOf (encode i) = i.fields ∧ (encode i).toNat < 64 ∧ i ∈ Instr.all

theorem nop : Statement .nop := by
  unfold Statement
  decide

theorem encB : Statement .encB := by
  unfold Statement
  decide

theorem encEf : Statement .encEf := by
  unfold Statement
  decide

theorem encEn : Statement .encEn := by
  unfold Statement
  decide

theorem decB : Statement .decB := by
  unfold Statement
  decide

theorem decEf : Statement .decEf := by
  unfold Statement
  decide

theorem decEn : Statement .decEn := by
  unfold Statement
  decide

theorem capB : Statement .capB := by
  unfold Statement
  decide

theorem capEf : Statement .capEf := by
  unfold Statement
  decide

theorem capEn : Statement .capEn := by
  unfold Statement
  decide

end Sys2Proof.Laws.CommandWord
end

