-- ==== Sys2Proof/Laws/Step.lean ====
section
/-!
SUPPORT. Everything that a step can do: whose turn it is, what a host operation comes to, and what a latched word
comes to.
-/

namespace Sys2Proof.Machine

/-- The latched word is run as its command or ends illegal (R111, R112). -/
theorem runLatched_cases (s : State) :
    (∃ i, decode s.cmdl = .ok i ∧ runLatched s = exec i s) ∨
    ((∃ r, decode s.cmdl = .error r) ∧ runLatched s = .next (s.complete .illegalCommand)) := by
  unfold runLatched
  cases h : decode s.cmdl with
  | error r => exact .inr ⟨⟨r, rfl⟩, rfl⟩
  | ok i => exact .inl ⟨i, rfl, rfl⟩

/-- R37: a step that answers a next state starts with FAULT = NONE and is a turn of the engine, of the host or of reset. -/
theorem step_cases {s t : State} (h : step s = .next t) :
    s.fault = none ∧
    ((s.nextTurn = .engine ∧ s.status.busy = true ∧ runLatched s.popTurn = .next t) ∨
     (s.nextTurn = .engine ∧ s.status.busy = false ∧ t = s.popTurn) ∨
     (s.nextTurn = .host ∧ t = hostTurn s.popTurn) ∨
     (s.nextTurn = .reset ∧ t = s.popTurn.assertReset)) := by
  unfold step at h
  cases hf : s.fault with
  | some r => simp [hf] at h
  | none =>
    refine ⟨rfl, ?_⟩
    simp only [hf] at h
    cases hn : s.nextTurn with
    | engine =>
      simp only [hn] at h
      cases hb : s.status.busy with
      | true => exact .inl ⟨rfl, rfl, by simpa [hb] using h⟩
      | false => exact .inr (.inl ⟨rfl, rfl, by simpa [hb] using h.symm⟩)
    | host =>
      simp only [hn] at h
      exact .inr (.inr (.inl ⟨rfl, by simpa using h.symm⟩))
    | reset =>
      simp only [hn] at h
      exact .inr (.inr (.inr ⟨rfl, by simpa using h.symm⟩))

/-- A turn of the engine while BUSY = 1 (R110). -/
theorem step_engine {s : State} (hf : s.fault = none) (hn : s.nextTurn = .engine) (hb : s.status.busy = true) :
    step s = runLatched s.popTurn := by
  unfold step
  simp [hf, hn, hb]

/-- A turn of the engine while BUSY = 0 (log 5). -/
theorem step_engine_idle {s : State} (hf : s.fault = none) (hn : s.nextTurn = .engine)
    (hb : s.status.busy = false) : step s = .next s.popTurn := by
  unfold step
  simp [hf, hn, hb]

/-- A turn of the host. -/
theorem step_host {s : State} (hf : s.fault = none) (hn : s.nextTurn = .host) :
    step s = .next (hostTurn s.popTurn) := by
  unfold step
  simp [hf, hn]

/-- A turn of the host with an operation to perform. -/
theorem step_hostPerform {s : State} {op : HostOp} {rest : List HostOp} (hf : s.fault = none)
    (hn : s.nextTurn = .host) (hp : s.prog = op :: rest) :
    step s = .next (hostPerform op s.popTurn) := by
  rw [step_host hf hn, hostTurn, State.popTurn_prog, hp]

/-- A turn of reset (log 6). -/
theorem step_reset {s : State} (hf : s.fault = none) (hn : s.nextTurn = .reset) :
    step s = .next s.popTurn.assertReset := by
  unfold step
  simp [hf, hn]

/-- R26: bit 0 of STATUS is BUSY. -/
theorem Status.word_bit_zero (st : Status) : st.word.getLsbD 0 = st.busy := by
  unfold Status.word
  rw [BitVec.getLsbD_append]
  simp

/-- R26: bit 0 of STATUS is BUSY, in the form that simp gives a bit. -/
@[simp] theorem Status.getElem_word_zero (st : Status) : st.word[0] = st.busy := Status.word_bit_zero st

/-- R146: STATUS can always be read. -/
theorem hostRegRead_status (s : State) :
    hostRegRead s (Reg.offset .status) .w32 = .ok s.status.word := by
  unfold hostRegRead
  rw [if_neg (by simp)]
  rfl

/-- R24, R45, R46: an access that reaches a register is 32 bits wide and at the register's offset. -/
theorem regAccess_eq_ok {o : Fin 64} {width : Width} {reg : Reg} (h : regAccess o width = .ok reg) :
    width = .w32 ∧ o = Reg.offset reg := by
  have ho : ∀ (o : Fin 64) (reg : Reg), regAt o = some reg → o = Reg.offset reg := by
    intro o reg
    cases reg <;> revert o <;> decide
  unfold regAccess at h
  split_ifs at h with hc
  refine ⟨by by_contra hne; exact hc (.inl hne), ho o reg ?_⟩
  cases hr : regAt o with
  | none => simp [hr] at h
  | some r => simpa [hr] using h

/-- Everything a host operation can come to: a model fault that leaves all else; a read; a command accepted; a length
stored; an ignored write; a byte written; or a poll of STATUS. -/
theorem hostPerform_cases (op : HostOp) (s : State) :
    (∃ r, hostPerform op s = s.setFault r) ∨
    (∃ v, hostPerform op s = (s.reply v).popOp) ∨
    (∃ v, hostPerform op s = s.reply v) ∨
    (∃ v, op = .regWrite (Reg.offset .cmd) .w32 v ∧ s.status.busy = false ∧
      hostPerform op s = (s.accept v).popOp) ∨
    (∃ v, op = .regWrite (Reg.offset .clen) .w32 v ∧ hostPerform op s = { s with clen := v }.popOp) ∨
    (∃ v, op = .regWrite (Reg.offset .mlen) .w32 v ∧ hostPerform op s = { s with mlen := v }.popOp) ∨
    hostPerform op s = s.popOp ∨
    (∃ b a v, op = .bufWrite b a v ∧ s.status.busy = false ∧ a < bufSize s.params b ∧
      hostPerform op s = (s.withBuf b ((s.buf b).write a v)).popOp) := by
  cases op with
  | regRead o width =>
    cases h : hostRegRead s o width with
    | error r => exact .inl ⟨r, by simp only [hostPerform, h]⟩
    | ok v => exact .inr (.inl ⟨.word v, by simp only [hostPerform, h]⟩)
  | regWrite o width v =>
    by_cases hb : s.status.busy = true
    · exact .inl ⟨.hazardBusy, by simp only [hostPerform, hostRegWrite, if_pos hb]⟩
    · cases ha : regAccess o width with
      | error r => exact .inl ⟨r, by simp only [hostPerform, hostRegWrite, if_neg hb, ha]⟩
      | ok reg =>
        have hs : hostPerform (.regWrite o width v) s = (s.regStore reg v).popOp := by
          simp only [hostPerform, hostRegWrite, if_neg hb, ha]
        obtain ⟨rfl, rfl⟩ := regAccess_eq_ok ha
        rw [hs]
        cases reg with
        | cmd => exact .inr (.inr (.inr (.inl ⟨v, rfl, by simpa using hb, rfl⟩)))
        | clen => exact .inr (.inr (.inr (.inr (.inl ⟨v, rfl, rfl⟩))))
        | mlen => exact .inr (.inr (.inr (.inr (.inr (.inl ⟨v, rfl, rfl⟩)))))
        | status => exact .inr (.inr (.inr (.inr (.inr (.inr (.inl rfl))))))
        | hdr => exact .inr (.inr (.inr (.inr (.inr (.inr (.inl rfl))))))
        | rlen => exact .inr (.inr (.inr (.inr (.inr (.inr (.inl rfl))))))
        | cap => exact .inr (.inr (.inr (.inr (.inr (.inr (.inl rfl))))))
  | bufRead b a =>
    cases h : hostBufRead s b a with
    | error r => exact .inl ⟨r, by simp only [hostPerform, h]⟩
    | ok v => exact .inr (.inl ⟨.byte v, by simp only [hostPerform, h]⟩)
  | bufWrite b a v =>
    by_cases hb : s.status.busy = true
    · exact .inl ⟨.hazardBusy, by simp only [hostPerform, hostBufWrite, if_pos hb]⟩
    · by_cases ha : bufSize s.params b ≤ a
      · exact .inl ⟨.outOfRange, by simp only [hostPerform, hostBufWrite, if_neg hb, if_pos ha]⟩
      · exact .inr (.inr (.inr (.inr (.inr (.inr (.inr ⟨b, a, v, rfl, by simpa using hb, by omega,
          by simp only [hostPerform, hostBufWrite, if_neg hb, if_neg ha]⟩))))))
  | wait =>
    have hw : hostPerform .wait s =
        if s.status.busy then s.reply (.word s.status.word) else (s.reply (.word s.status.word)).popOp := by
      simp only [hostPerform, hostRegRead_status, Status.word_bit_zero]
    rw [hw]
    split_ifs
    · exact .inr (.inr (.inl ⟨_, rfl⟩))
    · exact .inr (.inl ⟨_, rfl⟩)

end Sys2Proof.Machine
end

