-- ==== Sys2Proof/Laws/Run.lean ====
section
/-!
SUPPORT. Runs of several steps: no step, one more step, a run after a run, and a host program that is used up.
-/

namespace Sys2Proof.Machine

/-- A run of no step stays where it is. -/
theorem eq_of_run_zero {s t : State} (h : Sys2Proof.core.run 0 s = .next t) : s = t :=
  Host.Outcome.next.inj h

/-- A run starts with its first step. -/
theorem run_succ {s t : State} (h : step s = .next t) (k : Nat) :
    Sys2Proof.core.run (k + 1) s = Sys2Proof.core.run k t := by
  simp [Host.Core.run, Sys2Proof.core, h]

/-- A run that ends in a next state has a first step. -/
theorem step_of_run_succ {s t : State} {k : Nat} (h : Sys2Proof.core.run (k + 1) s = .next t) :
    ∃ u, step s = .next u ∧ Sys2Proof.core.run k u = .next t := by
  cases hs : step s with
  | next u => exact ⟨u, rfl, by rw [run_succ hs] at h; exact h⟩
  | fault r => simp [Host.Core.run, Sys2Proof.core, hs] at h
  | refused r => simp [Host.Core.run, Sys2Proof.core, hs] at h

/-- One step is a run of one step. -/
theorem run_one {s t : State} (h : step s = .next t) : Sys2Proof.core.run 1 s = .next t := run_succ h 0

/-- A run goes on from where its first part ends. -/
theorem run_add {j : Nat} {s u : State} (h : Sys2Proof.core.run j s = .next u) (k : Nat) :
    Sys2Proof.core.run (j + k) s = Sys2Proof.core.run k u := by
  induction j generalizing s with
  | zero => rw [eq_of_run_zero h, Nat.zero_add]
  | succ j ih =>
    obtain ⟨t, hs, ht⟩ := step_of_run_succ h
    rw [show j + 1 + k = j + k + 1 by omega, run_succ hs]
    exact ih ht

/-- No command touches the host's program. -/
theorem exec_prog {i : Instr} {s t : State} (h : exec i s = .next t) : t.prog = s.prog := by
  rcases Instr.kinds i with rfl | ⟨sch, rfl | rfl | rfl⟩
  · obtain rfl := Host.Outcome.next.inj h
    rfl
  · rw [exec_encOf] at h
    rcases encodeSeq_cases sch s with ⟨_, hx⟩ | ⟨_, _, ⟨_, hx⟩ | ⟨_, ⟨_, hx⟩ | ⟨_, _, hx, _⟩⟩⟩ <;> rw [hx] at h <;>
      obtain rfl := Host.Outcome.next.inj h <;> rfl
  · rw [exec_decOf] at h
    rcases decodeSeq_cases sch s with
      ⟨_, hx⟩ | ⟨_, ⟨_, hx⟩ | ⟨_, _, hx⟩ | ⟨_, ⟨_, hx⟩ | ⟨_, _, hx⟩ | ⟨_, ⟨_, hx⟩ | ⟨_, _, hx⟩ | ⟨_, _, _, hx, _⟩⟩⟩⟩ <;>
      rw [hx] at h <;> obtain rfl := Host.Outcome.next.inj h <;> rfl
  · rw [exec_capOf] at h
    rcases capSeq_cases sch s with ⟨_, hx⟩ | ⟨_, hx⟩ <;> rw [hx] at h <;>
      obtain rfl := Host.Outcome.next.inj h <;> rfl

/-- A used-up host program stays used up. -/
theorem step_prog_nil {s t : State} (h : step s = .next t) (hp : s.prog = []) : t.prog = [] := by
  obtain ⟨-, ⟨-, -, hr⟩ | ⟨-, -, rfl⟩ | ⟨-, rfl⟩ | ⟨-, rfl⟩⟩ := step_cases h
  · rcases runLatched_cases s.popTurn with ⟨_, -, hx⟩ | ⟨-, hx⟩ <;> rw [hx] at hr
    · exact (exec_prog hr).trans hp
    · obtain rfl := Host.Outcome.next.inj hr
      exact hp
  · exact hp
  · rw [hostTurn, show s.popTurn.prog = [] from hp]
    exact hp
  · exact hp

/-- A used-up host program stays used up in every run. -/
theorem run_prog_nil {k : Nat} {s t : State} (h : Sys2Proof.core.run k s = .next t) (hp : s.prog = []) :
    t.prog = [] := by
  induction k generalizing s with
  | zero => exact eq_of_run_zero h ▸ hp
  | succ k ih =>
    obtain ⟨u, hs, hu⟩ := step_of_run_succ h
    exact ih hu (step_prog_nil hs hp)

end Sys2Proof.Machine
end

