-- ==== Sys2Proof/Tests/Slice0.lean ====
section
/-!
SUPPORT. Tests: ill-formed terms that the checks refuse, words written out from the encoding, one-step vectors of
spec/95_test_vectors.md, and for every statement with hypotheses a state that meets them.

Every expected result is the spec's: a vector's own number is in its docstring.
-/

namespace Sys2Proof.Tests

open Sys2Proof.Machine

/-- The next state, if there is one. -/
def next? (o : Host.Outcome State Fault Refusal) : Option State :=
  match o with
  | .next t => some t
  | .fault _ => none
  | .refused _ => none

/-- Bytes from index 0 on. -/
def bytes (vs : List Byte) : Memory := Memory.writeBytes [] 0 vs

/-- A carrier of `n` bytes `v`. -/
def carrier (n : Nat) (v : Byte) : Memory := bytes (List.replicate n v)

/-- A carrier with some bytes replaced. -/
def patch (m : Memory) (cs : List (Nat × Byte)) : Memory := cs.foldl (fun m c => m.write c.1 c.2) m

/-- The buffers of 95_test_vectors.md, in machines of the smallest O_MAX that R9 allows. -/
def small : Params := ⟨48, 4, 8, 0, 64, 112, 116⟩

/-- An idle machine with a carrier, its length and a message. -/
def machine (m : Memory) (n : Nat) (msg : List Byte) : State :=
  { State.reset with
    cbuf := m, clen := BitVec.ofNat 32 n, mbuf := bytes msg, mlen := BitVec.ofNat 32 msg.length }

/-- The engine is about to run the word `w`. -/
def latched (w : Word) (s : State) : State :=
  { s with cmdl := w, status := ⟨true, false, 0⟩, turns := [.engine] }

/-- The host of an idle machine is about to perform `op`. -/
def hosting (op : HostOp) : State :=
  { State.resetWith small with clen := 7, mlen := 9, prog := [op], turns := [.host] }

/-- The host is about to perform `op` while BUSY = 1. -/
def hostingBusy (op : HostOp) : State := { hosting op with status := ⟨true, false, 0⟩ }

/-- The results that a step leaves. -/
structure Seen where
  status : Word
  hdr : Word
  rlen : Word
  cap : Word
  fault : Option Fault
deriving DecidableEq, Repr

/-- The results after the step of a latched word. -/
def ran (w : Word) (s : State) : Option Seen :=
  (next? (step (latched w s))).map fun t => ⟨t.status.word, t.hdr, t.rlen, t.cap, t.fault⟩

/-! ## Checks -/

theorem test_wf_refuses_reserved_bits : ¬ (⟨1, 0, 1⟩ : Cmd32).wf := by decide

theorem test_wf_refuses_reserved_op : ¬ (⟨4, 0, 0⟩ : Cmd32).wf := by decide

theorem test_wf_refuses_reserved_scheme : ¬ (⟨3, 3, 0⟩ : Cmd32).wf := by decide

theorem test_wf_refuses_nop_with_scheme : ¬ (⟨0, 1, 0⟩ : Cmd32).wf := by decide

theorem test_wf_takes_highest_word : (⟨3, 2, 0⟩ : Cmd32).wf := by decide

theorem test_params_small : small.wf := by decide

theorem test_params_refuse_short_carrier : ¬ ({ small with nMax := 31 } : Params).sizesOk := by decide

theorem test_params_refuse_long_carrier :
    ¬ ({ small with nMax := 2147483648, oMax := 536870912 } : Params).sizesOk := by decide

theorem test_params_refuse_no_message : ¬ ({ small with mMax := 0 } : Params).sizesOk := by decide

theorem test_params_refuse_long_message : ¬ ({ small with mMax := 536870912 } : Params).sizesOk := by decide

theorem test_params_refuse_short_output : ¬ ({ small with oMax := 7 } : Params).sizesOk := by decide

theorem test_params_refuse_unaligned_registers : ¬ ({ small with regBase := 160 } : Params).placementOk := by
  decide

/-- One placement for each pair of windows that overlaps in one byte. -/
theorem test_params_refuse_overlap :
    ∀ p ∈ ([{ small with cbufBase := 63, mbufBase := 200, obufBase := 300 },
        { small with mbufBase := 61, cbufBase := 200, obufBase := 300 },
        { small with obufBase := 63, cbufBase := 200, mbufBase := 300 },
        { small with cbufBase := 100, mbufBase := 147, obufBase := 300 },
        { small with cbufBase := 100, obufBase := 147, mbufBase := 300 },
        { small with cbufBase := 200, mbufBase := 100, obufBase := 103 }] : List Params), ¬ p.placementOk := by
  decide

/-! ## Words, written bit by bit from R63 to R65 -/

theorem test_decode_nop : decode 0b00000000000000000000000000000000#32 = .ok .nop := by decide

theorem test_decode_enc :
    decode 0b00000000000000000000000000000001#32 = .ok .encB ∧
    decode 0b00000000000000000000000000010001#32 = .ok .encEf ∧
    decode 0b00000000000000000000000000100001#32 = .ok .encEn := by decide

theorem test_decode_dec :
    decode 0b00000000000000000000000000000010#32 = .ok .decB ∧
    decode 0b00000000000000000000000000010010#32 = .ok .decEf ∧
    decode 0b00000000000000000000000000100010#32 = .ok .decEn := by decide

theorem test_decode_cap :
    decode 0b00000000000000000000000000000011#32 = .ok .capB ∧
    decode 0b00000000000000000000000000010011#32 = .ok .capEf ∧
    decode 0b00000000000000000000000000100011#32 = .ok .capEn := by decide

/-- R69, V-C-4 to V-C-8. -/
theorem test_decode_illegal :
    decode 0b00000000000000000000000000000100#32 = .error .reservedOp ∧
    decode 0b00000000000000000000000000010000#32 = .error .nopWithScheme ∧
    decode 0b00000000000000000000000000110011#32 = .error .reservedScheme ∧
    decode 0b10000000000000000000000000000001#32 = .error .reservedBits ∧
    decode 0b00000000000000000000000001000001#32 = .error .reservedBits := by decide

theorem test_decodeTableWord :
    decodeTableWord 32 0x21 = some .encEn ∧ decodeTableWord 8 0x13 = some .capEf ∧
    decodeTableWord 32 0x31 = none := by decide

/-- The words of the opcode map run as the first command after reset. -/
theorem test_withFetchWord :
    ((next? (step (State.reset.withFetchWord 32 0x03))).map fun t => t.status.word) = some 0x02 ∧
    ((next? (step (State.reset.withFetchWord 32 0x01))).map fun t => t.status.word) = some 0x12 ∧
    ((next? (step (State.reset.withFetchWord 32 0x02))).map fun t => t.status.word) = some 0x22 := by
  decide +kernel

/-! ## Commands -/

/-- V-C-3. -/
theorem test_nop : next? (step (latched 0 { State.reset with status := ⟨false, true, 5⟩ })) =
    some { State.reset with status := ⟨false, true, 0⟩ } := by decide +kernel

/-- V-B-2. -/
theorem test_encB_ff_carrier :
    ((next? (step (latched 0x01 (machine (carrier 48 0xFF) 48 [0x48, 0x69])))).map fun t => t.cbuf) =
      some (patch (carrier 48 0xFE)
        [(27, 0xFF), (33, 0xFF), (36, 0xFF), (41, 0xFF), (42, 0xFF), (44, 0xFF), (47, 0xFF)]) := by
  decide +kernel

/-- V-CAP-5. -/
theorem test_encB_one_byte_short :
    next? (step (latched 0x01 (machine (carrier 47 0xFF) 47 [0x48, 0x69]))) =
      some { latched 0x01 (machine (carrier 47 0xFF) 47 [0x48, 0x69]) with
        status := ⟨false, true, 1⟩, turns := [] } := by decide +kernel

/-- V-EF-4: carrier bytes that hold the target pattern already are not flipped. -/
theorem test_encEf_flips :
    ((next? (step (latched 0x11 (machine (carrier 24 0x5A) 24 [0xC3])))).map fun t => t.cbuf) =
      some (patch (carrier 24 0x5A) ((List.range 20).map fun k =>
        (k, if k = 14 then 0x5A else if k = 16 ∨ k = 19 then 0x5D else 0x51))) := by decide +kernel

/-- V-EF-8: no flip either when the frame does not fit. -/
theorem test_encEf_one_byte_short :
    ((next? (step (latched 0x11 (machine (carrier 19 0xFF) 19 [0x41])))).map fun t => (t.status.word, t.cbuf)) =
      some (0x12, carrier 19 0xFF) := by decide +kernel

/-- V-EN-3. -/
theorem test_encEn_five_bytes :
    ((next? (step (latched 0x21 (machine (carrier 40 0) 40 [0x00, 0x01, 0x80, 0xFF, 0x5A])))).map fun t => t.cbuf) =
      some (patch (carrier 40 0) [(13, 8), (14, 8), (23, 4), (24, 8), (28, 12), (29, 12), (30, 12), (31, 12),
        (32, 4), (33, 4), (34, 8), (35, 8)]) := by decide +kernel

/-- V-CAP-11: the length is checked before any byte is read. -/
theorem test_encEn_message_too_long :
    ran 0x21 { machine [] 400 [] with mlen := 536870912 } = some ⟨0x62, 0, 0, 0, none⟩ := by decide +kernel

/-- V-B-5. -/
theorem test_decB_message :
    ((next? (step (latched 0x02 (machine (patch (carrier 48 0)
      [(27, 1), (33, 1), (36, 1), (41, 1), (42, 1), (44, 1), (47, 1)]) 48 [])))).map
        fun t => (t.status.word, t.hdr, t.rlen, t.obuf)) = some (0x02, 16, 2, bytes [0x48, 0x69]) := by
  decide +kernel

/-- V-B-9 and V-B-10: the header guard comes before the byte alignment. -/
theorem test_decB_errors :
    ran 0x02 (machine (patch (carrier 44 0) [(28, 1), (29, 1)]) 44 []) = some ⟨0x42, 12, 0, 0, none⟩ ∧
    ran 0x02 (machine (patch (carrier 44 0) [(27, 1), (28, 1)]) 44 []) = some ⟨0x22, 24, 0, 0, none⟩ := by
  decide +kernel

/-- V-EF-3: bits 0 and 1 of the carrier do not matter. -/
theorem test_decEf_flip_isolation :
    ((next? (step (latched 0x12 (machine (patch (carrier 20 0xF3) [(14, 0xFB), (16, 0xF7), (19, 0xF7)]) 20 [])))).map
      fun t => (t.status.word, t.hdr, t.rlen, t.obuf)) = some (0x02, 8, 1, bytes [0x41]) := by decide +kernel

/-- V-EN-10 for DEC.EF: HDR stays. -/
theorem test_decEf_short_carrier :
    ran 0x12 { machine [] 15 [] with hdr := 9 } = some ⟨0x22, 9, 0, 0, none⟩ := by decide +kernel

/-- V-EN-6 and V-EN-7. -/
theorem test_decEn_errors :
    ran 0x22 (machine (patch (carrier 40 0) [(14, 8), (15, 4)]) 40 []) = some ⟨0x32, 9, 0, 0, none⟩ ∧
    ran 0x22 (machine (patch (carrier 40 0) [(14, 12)]) 40 []) = some ⟨0x42, 12, 0, 0, none⟩ := by
  decide +kernel

/-- V-EN-8 and V-EN-9. -/
theorem test_decEn_header_guard :
    ran 0x22 (machine (patch (carrier 20 0) [(13, 4)]) 20 []) = some ⟨0x22, 16, 0, 0, none⟩ ∧
    ran 0x22 (machine (patch (carrier 19 0) [(14, 8)]) 19 []) = some ⟨0x22, 8, 0, 0, none⟩ := by
  decide +kernel

/-- V-CAP-1 and V-CAP-10. -/
theorem test_capB :
    ran 0x03 (machine [] 400 []) = some ⟨0x02, 0, 0, 400, none⟩ ∧
    ran 0x03 { machine [] 2147483648 [] with cap := 5 } = some ⟨0x62, 0, 0, 5, none⟩ := by decide +kernel

/-- V-CAP-2. -/
theorem test_capEf : ran 0x13 (machine [] 40 []) = some ⟨0x02, 0, 0, 80, none⟩ := by decide +kernel

/-- V-CAP-3. -/
theorem test_capEn : ran 0x23 (machine [] 0 []) = some ⟨0x02, 0, 0, 0, none⟩ := by decide +kernel

/-- V-CAP-12: an illegal word wins over the range. -/
theorem test_illegal_before_range :
    ran 0x31 { machine [] 2147483648 [] with mlen := 536870912 } = some ⟨0x52, 0, 0, 0, none⟩ := by decide +kernel

/-- V-C-16 and V-C-17: BUSY stays 1 after a read of a byte never written, and the capacity is checked first. -/
theorem test_unwritten_message :
    ran 0x01 { machine (carrier 48 0) 48 [] with mlen := 2 } = some ⟨0x01, 0, 0, 0, some .uninitRead⟩ ∧
    ran 0x01 { machine [] 47 [] with mlen := 2 } = some ⟨0x12, 0, 0, 0, none⟩ := by decide +kernel

/-! ## The host -/

/-- V-C-9 to V-C-15 and V-C-18. -/
theorem test_host_faults :
    ∀ x ∈ ([(hostingBusy (.regWrite 0x08 .w32 4), .hazardBusy), (hosting (.regRead 0x1C .w32), .reservedOffset),
        (hosting (.regRead 0x06 .w32), .misaligned), (hosting (.regRead 0x04 .w8), .misaligned),
        (hosting (.bufRead .obuf 8), .outOfRange), (hosting (.bufRead .cbuf 0), .uninitRead)] :
        List (State × Fault)),
      next? (step x.1) = some { x.1 with turns := [], fault := some x.2 } := by decide +kernel

theorem test_host_replies :
    ∀ x ∈ ([(hosting (.regRead 0x00 .w32), 0), (hosting (.regRead 0x08 .w32), 7),
        (hostingBusy (.regRead 0x04 .w32), 1)] : List (State × Word)),
      next? (step x.1) = some { x.1 with turns := [], prog := [], replies := [.word x.2] } := by decide +kernel

/-- V-C-10. -/
theorem test_host_ignored_writes :
    ∀ o ∈ ([0x04, 0x10, 0x14, 0x18] : List (Fin 64)),
      next? (step (hosting (.regWrite o .w32 0xFFFFFFFF))) =
        some { hosting (.regWrite o .w32 0xFFFFFFFF) with turns := [], prog := [] } := by decide +kernel

/-- R71: `fill` over an empty range is no operation, and so is one over a range turned round (log 23). -/
theorem test_fill_empty : fill .cbuf 3 3 1 = [] ∧ fill .cbuf 3 2 1 = [] := by decide

/-- Lines of P1 and P3 (R70, R71). -/
theorem test_assemble_lines :
    assembleLine "        wr     CLEN, 48               ; W32".toList = some [.regWrite 0x08 .w32 48] ∧
    assembleLine "        fill   CBUF[1..3), 0xFF".toList = some [.bufWrite .cbuf 1 255, .bufWrite .cbuf 2 255] ∧
    assembleLine "        wbytes MBUF[0], 0x48, 0x69".toList =
      some [.bufWrite .mbuf 0 0x48, .bufWrite .mbuf 1 0x69] ∧
    assembleLine "        run    ENC.EN".toList = some [.regWrite 0x00 .w32 0x21, .wait] := by decide +kernel

/-- The bus transactions of P1 (R41, R42). -/
theorem test_bus :
    busTarget small 24 = some (.reg 0x18) ∧ busTarget small 64 = some (.byte .cbuf 0) ∧
    busTarget small 111 = some (.byte .cbuf 47) ∧ busTarget small 112 = some (.byte .mbuf 0) ∧
    busTarget small 123 = some (.byte .obuf 7) ∧ busTarget small 124 = none := by decide +kernel

/-! ## States that meet the hypotheses of the statements, one theorem a statement, each clause at its boundary -/

theorem witness_DecodeByFieldValues :
    (0x00000040#32).toNat / 64 = 1 ∧ (0xFFFFFFFF#32).toNat / 64 = 2 ^ 26 - 1 ∧
    (∀ w ∈ ([0x10, 0x30] : List Word), w.toNat / 64 = 0 ∧ w.toNat % 16 = 0 ∧ w.toNat / 16 % 4 ≠ 0) ∧
    (∀ w ∈ ([0x04, 0x3F] : List Word), w.toNat / 64 = 0 ∧ 3 < w.toNat % 16) ∧
    (∀ w ∈ ([0x31, 0x33] : List Word), w.toNat / 64 = 0 ∧ w.toNat % 16 ≠ 0 ∧ w.toNat % 16 ≤ 3 ∧ w.toNat / 16 % 4 = 3) ∧
    ∀ w ∈ ([0x01, 0x22] : List Word), w.toNat / 64 = 0 ∧ w.toNat / 16 % 4 < 3 := by
  simp

/-- A busy machine at whose next turn reset is asserted. -/
def resetting : State := { machine (carrier 2 1) 2 [1] with status := ⟨true, false, 0⟩, cmdl := 1, turns := [.reset] }

theorem witness_ResetTurnDiscardsTheCommand : resetting.fault = none ∧ resetting.nextTurn = .reset := by decide

theorem witness_HostRegisterReads :
    (∀ o ∈ ([0x00, 0x04, 0x08, 0x0C, 0x10, 0x14, 0x18] : List (Fin 64)),
      (hosting (.regRead o .w32)).hostMoves (.regRead o .w32) [] ∧
      (hosting (.regRead o .w32)).status.busy = false) ∧
    (hostingBusy (.regRead 0x04 .w32)).hostMoves (.regRead 0x04 .w32) [] ∧
    ∀ o ∈ ([0x00, 0x06, 0x18, 0x1C, 0x3C] : List (Fin 64)),
      (hostingBusy (.regRead o .w32)).hostMoves (.regRead o .w32) [] ∧
      (hostingBusy (.regRead o .w32)).status.busy = true ∧ o ≠ 0x04 := by decide

theorem witness_HostRegisterWrites :
    (∀ o ∈ ([0x00, 0x04, 0x08, 0x0C, 0x10, 0x14, 0x18] : List (Fin 64)),
      (hosting (.regWrite o .w32 0xFFFFFFFF)).hostMoves (.regWrite o .w32 0xFFFFFFFF) [] ∧
      (hosting (.regWrite o .w32 0xFFFFFFFF)).status.busy = false) ∧
    ∀ o ∈ ([0x00, 0x04, 0x06, 0x18, 0x1C, 0x3C] : List (Fin 64)),
      (hostingBusy (.regWrite o .w32 1)).hostMoves (.regWrite o .w32 1) [] ∧
      (hostingBusy (.regWrite o .w32 1)).status.busy = true := by decide

theorem witness_BadRegisterAccessFaults :
    (∀ op ∈ ([.regRead 0x04 .w16, .regRead 0x03 .w32, .regRead 0x1C .w32, .regRead 0x3C .w32, .regRead 0x3F .w8,
        .regWrite 0x1C .w32 1, .regWrite 0x01 .w32 1, .regWrite 0x00 .w8 1] : List HostOp),
      (hosting op).hostMoves op [] ∧ (hosting op).status.busy = false ∧
      (hostingBusy op).hostMoves op [] ∧ (hostingBusy op).status.busy = true) ∧
    ((0x1C : Fin 64).val % 4 = 0 ∧ 0x1C ≤ (0x1C : Fin 64).val) ∧ (0x03 : Fin 64).val % 4 ≠ 0 := by decide

theorem witness_HostBufferAccess :
    (∀ op ∈ ([.bufRead .cbuf 47, .bufRead .cbuf 48, .bufWrite .obuf 7 1, .bufWrite .obuf 8 1] : List HostOp),
      (hosting op).hostMoves op [] ∧ (hosting op).status.busy = false ∧
      (hostingBusy op).hostMoves op [] ∧ (hostingBusy op).status.busy = true) ∧
    bufSize (hosting .wait).params .cbuf = 48 ∧ bufSize (hosting .wait).params .obuf = 8 ∧
    ((hosting .wait).buf .cbuf).read 47 = none ∧
    ({ hosting (.bufRead .cbuf 47) with cbuf := [(47, 5)] }.buf .cbuf).read 47 = some 5 := by decide

theorem witness_BusyHostMayOnlyReadStatus :
    ∀ op ∈ ([.regRead 0x04 .w32, .regRead 0x08 .w32, .regRead 0x06 .w32, .regWrite 0x1C .w32 1, .bufRead .obuf 0,
        .bufWrite .obuf 8 1] : List HostOp),
      (hostingBusy op).hostMoves op [] ∧ (hostingBusy op).status.busy = true := by decide

theorem witness_WaitReadsStatusUntilIdle :
    ((hosting .wait).hostMoves .wait [] ∧ (hosting .wait).status.busy = false) ∧
    (hostingBusy .wait).hostMoves .wait [] ∧ (hostingBusy .wait).status.busy = true := by decide

theorem witness_StepRunsTheLatchedCommand :
    (latched 0x21 State.reset).engineMoves ∧ (latched 0x21 State.reset).status.busy = true ∧
    decode (latched 0x21 State.reset).cmdl = .ok .encEn := by decide

theorem witness_ReservedWordEndsIllegalCommand :
    (latched 0x31 State.reset).engineMoves ∧ (latched 0x31 State.reset).status.busy = true ∧
    ∀ i ∈ Instr.all, decode (latched 0x31 State.reset).cmdl ≠ .ok i := by decide

theorem witness_EngineStepCompletesOrFaults :
    (latched 0x01 State.reset).engineMoves ∧ (latched 0x01 State.reset).status.busy = true ∧
    { State.reset with turns := [.engine] }.engineMoves ∧ State.reset.status.busy = false := by decide

theorem witness_FaultStopsTheMachine :
    ({ State.reset with fault := some .outOfRange } : State).fault = some .outOfRange ∧
    ∃ t, step State.reset = .next t := ⟨by decide, _, rfl⟩

theorem witness_NopCompletes : (0x10#32).toNat % 16 = 0 ∧ (0x10#32 : Word) ≠ 0 := by decide

/-- A machine with the small buffers. -/
def smallMachine (m : Memory) (n : Nat) (msg : List Byte) : State := { machine m n msg with params := small }

theorem witness_CapacityQueries :
    (smallMachine [] 48 []).params.sizesOk ∧
    (smallMachine [] 48 []).carrierLen ≤ (smallMachine [] 48 []).params.nMax ∧
    (smallMachine [] 49 []).params.nMax < (smallMachine [] 49 []).carrierLen := by decide

theorem witness_LengthBeyondBufferEndsRange :
    (smallMachine [] 49 []).params.nMax < (smallMachine [] 49 []).clen.toNat ∧
    (smallMachine [] 48 [1, 2, 3, 4, 5]).params.mMax < (smallMachine [] 48 [1, 2, 3, 4, 5]).mlen.toNat := by decide

theorem witness_FrameBeyondCarrierEndsCapacity :
    ∀ x ∈ ([(.basic, 47, [1, 2]), (.enhancedFlip, 15, []), (.enhancedNoFlip, 19, [1])] :
        List (Scheme × Nat × List Byte)),
      (smallMachine [] x.2.1 x.2.2).clen.toNat ≤ (smallMachine [] x.2.1 x.2.2).params.nMax ∧
      (smallMachine [] x.2.1 x.2.2).mlen.toNat ≤ (smallMachine [] x.2.1 x.2.2).params.mMax ∧
      (smallMachine [] x.2.1 x.2.2).clen.toNat * units x.1 <
        32 + 8 * (smallMachine [] x.2.1 x.2.2).mlen.toNat := by decide

/-- The carriers that a frame fills exactly. -/
def fullB : State := smallMachine (carrier 48 0xA5) 48 [0x48, 0x69]

/-- The same for the enhanced schemes. -/
def fullE : State := smallMachine (carrier 20 0xA5) 20 [0xC3]

theorem witness_EncBWritesTheFrame : fullB.encReady .basic := by decide +kernel

theorem witness_EncEnWritesTheFrame : fullE.encReady .enhancedNoFlip := by decide +kernel

theorem witness_EncEfWritesTheFrame : fullE.encReady .enhancedFlip := by decide +kernel

theorem witness_FlipExactlyWhenTheUnitChanges : fullE.encReady .enhancedFlip := by decide +kernel

theorem witness_EncodeFrame :
    (∃ t, exec (encOf .basic) fullB = .next t) ∧ (∃ t, exec (encOf .enhancedFlip) fullE = .next t) ∧
    ∃ t, exec (encOf .enhancedNoFlip) fullE = .next t := by
  refine ⟨?_, ?_, ?_⟩
  · rcases exec_completes_or_faults (encOf .basic) fullB with ⟨_, _, h, _⟩ | h <;> exact ⟨_, h⟩
  · rcases exec_completes_or_faults (encOf .enhancedFlip) fullE with ⟨_, _, h, _⟩ | h <;> exact ⟨_, h⟩
  · rcases exec_completes_or_faults (encOf .enhancedNoFlip) fullE with ⟨_, _, h, _⟩ | h <;> exact ⟨_, h⟩

/-- V-B-11: a header of 16 that fills the carrier. -/
def heldB : State := smallMachine (patch (carrier 48 0) [(27, 1)]) 48 []

/-- A header of 8 that fills the carrier. -/
def heldE : State := smallMachine (patch (carrier 20 0) [(14, 8)]) 20 []

theorem witness_DecBDeliversTheMessage :
    heldB.payloadReady .basic ∧ streamHeader .basic heldB.cbuf = 16 ∧ headerLimit .basic heldB.carrierLen = 16 := by
  decide +kernel

theorem witness_DecEnhancedDeliversTheMessage :
    heldE.payloadReady .enhancedNoFlip ∧ streamHeader .enhancedNoFlip heldE.cbuf = 8 ∧
    headerLimit .enhancedNoFlip heldE.carrierLen = 8 := by decide +kernel

/-- V-B-8, V-B-12, V-EN-6, V-B-9, V-EN-7. -/
theorem witness_DecodeFailures :
    (smallMachine [] 31 []).carrierLen < headerBytes .basic ∧
    (smallMachine [] 15 []).carrierLen < headerBytes .enhancedFlip ∧
    ((smallMachine (patch (carrier 47 0) [(27, 1)]) 47 []).headerReady .basic ∧
      headerLimit .basic 47 < streamHeader .basic (patch (carrier 47 0) [(27, 1)])) ∧
    ((smallMachine (patch (carrier 40 0) [(14, 8), (15, 4)]) 40 []).payloadReady .enhancedNoFlip ∧
      streamHeader .enhancedNoFlip (patch (carrier 40 0) [(14, 8), (15, 4)]) % 2 = 1) ∧
    ((smallMachine (patch (carrier 44 0) [(28, 1), (29, 1)]) 44 []).payloadReady .basic ∧
      streamHeader .basic (patch (carrier 44 0) [(28, 1), (29, 1)]) % 8 ≠ 0) ∧
    ((smallMachine (patch (carrier 40 0) [(14, 12)]) 40 []).payloadReady .enhancedFlip ∧
      streamHeader .enhancedFlip (patch (carrier 40 0) [(14, 12)]) = 12) := by decide +kernel

theorem witness_DecodeFrame :
    (∃ t, exec (decOf .basic) heldB = .next t) ∧
    ∃ t, exec (decOf .enhancedFlip) (smallMachine [] 15 []) = .next t ∧ t.status.err ≠ 0 := by
  refine ⟨?_, _, rfl, by decide⟩
  rcases exec_completes_or_faults (decOf .basic) heldB with ⟨_, _, h, _⟩ | h <;> exact ⟨_, h⟩

theorem witness_OnlyUnitBitsMatterToEnhancedDecode :
    ∀ a, (Memory.read [(0, 0xF7)] a).map (fun v => v &&& 0x0C) = (Memory.read [(0, 0x04)] a).map fun v => v &&& 0x0C := by
  intro a
  by_cases h : a = 0 <;> simp [Memory.read, h]

/-- The last byte that each command reads is not written. -/
theorem witness_UnwrittenOperandSetsFault :
    (∀ x ∈ ([(.basic, { fullB with mbuf := bytes [1] }), (.basic, { fullB with cbuf := carrier 47 0 }),
        (.enhancedFlip, { fullE with cbuf := carrier 19 0 })] : List (Scheme × State)),
      x.2.carrierLen ≤ x.2.params.nMax ∧ x.2.messageLen ≤ x.2.params.mMax ∧
      32 + 8 * x.2.messageLen ≤ x.2.carrierLen * units x.1 ∧
      (¬ x.2.mbuf.writtenIn 0 x.2.messageLen ∨
        ¬ x.2.cbuf.writtenIn 0 ((32 + 8 * x.2.messageLen) / units x.1))) ∧
    (∀ x ∈ ([(.basic, smallMachine (carrier 31 0) 32 []), (.enhancedNoFlip, smallMachine (carrier 15 0) 16 [])] :
        List (Scheme × State)),
      headerBytes x.1 ≤ x.2.carrierLen ∧ ¬ x.2.cbuf.writtenIn 0 (headerBytes x.1)) ∧
    ∀ x ∈ ([(.basic, smallMachine (patch (carrier 47 0) [(27, 1)]) 48 []),
        (.enhancedNoFlip, smallMachine (patch (carrier 19 0) [(14, 8)]) 20 [])] : List (Scheme × State)),
      x.2.headerReady x.1 ∧ streamHeader x.1 x.2.cbuf ≤ headerLimit x.1 x.2.carrierLen ∧
      ¬ x.2.cbuf.writtenIn (headerBytes x.1) (payloadBytes x.1 (streamHeader x.1 x.2.cbuf)) := by decide +kernel

theorem witness_BootedCommandCompletes :
    heldB.bootReady .nop ∧ fullB.bootReady .encB ∧ fullE.bootReady .encEf ∧ fullE.bootReady .encEn ∧
    heldB.bootReady .decB ∧ heldE.bootReady .decEf ∧ heldE.bootReady .decEn ∧
    heldB.bootReady .capB ∧ heldB.bootReady .capEf ∧ heldB.bootReady .capEn := by
  simp only [State.bootReady]
  decide +kernel

theorem witness_FirstErrorIsReported :
    (latched 0 State.reset).engineMoves ∧ (latched 0 State.reset).status.busy = true ∧
    ∃ t, step (latched 0 State.reset) = .next t ∧ t.fault = none := ⟨by decide, by decide, _, rfl, by decide⟩

theorem witness_FailedCommandWritesNoBuffer :
    (latched 0x31 State.reset).engineMoves ∧ (latched 0x31 State.reset).status.busy = true ∧
    ∃ t, step (latched 0x31 State.reset) = .next t ∧ (t.fault ≠ none ∨ t.status.err ≠ 0) :=
  ⟨by decide, by decide, _, rfl, by decide⟩

/-- V-FR-3. -/
theorem witness_FrameBits : [0x00#8, 0xFF#8].length ≤ 2 ^ 29 - 1 := by decide

/-- V-FR-9, V-FR-8, V-FR-7. -/
theorem witness_ParseChecksAndBytes :
    (List.replicate 8 true).length < 9 ∧ (12 ≤ (List.replicate 12 true).length ∧ 12 % 8 ≠ 0) ∧
    8 ≤ (List.replicate 8 true).length ∧ 8 % 8 = 0 := by decide

theorem witness_FramerRoundTrip : ([] : List Byte).length ≤ 2 ^ 29 - 1 := by decide

theorem witness_EncBHeaderReadsBack :
    fullB.params.sizesOk ∧ fullB.encReady .basic ∧ ∃ t, exec .encB fullB = .next t := by
  refine ⟨by decide, by decide +kernel, ?_⟩
  rcases exec_completes_or_faults .encB fullB with ⟨_, _, h, _⟩ | h <;> exact ⟨_, h⟩

theorem witness_EncodeThenDecodeRoundTrip :
    fullB.params.sizesOk ∧ fullB.encReady .basic ∧ fullE.params.sizesOk ∧ fullE.encReady .enhancedFlip ∧
    fullE.encReady .enhancedNoFlip := by decide +kernel

/-- A state with the operands of another that differs in a result, in OBUF and beyond the lengths. -/
def sibling : State := { smallMachine [(0, 1)] 1 [] with hdr := 5, obuf := [(0, 9)] }

theorem witness_EffectDependsOnlyOnOperands :
    SameOperands (smallMachine [(0, 1), (1, 2)] 1 []) sibling ∧
    (smallMachine [(0, 1), (1, 2)] 1 []).fault = none ∧ sibling.fault = none :=
  ⟨⟨rfl, rfl, rfl, by decide, by decide⟩, rfl, rfl⟩

theorem witness_StatusWrittenOnlyByAcceptanceAndCompletion :
    (∃ t, step (hosting (.regWrite 0x00 .w32 1)) = .next t ∧ t.status ≠ (hosting (.regWrite 0x00 .w32 1)).status) ∧
    (∃ t, step (latched 0 State.reset) = .next t ∧ t.status ≠ (latched 0 State.reset).status) ∧
    ∃ t, step resetting = .next t ∧ t.status ≠ resetting.status :=
  ⟨⟨_, rfl, by decide⟩, ⟨_, rfl, by decide⟩, _, rfl, by decide⟩

theorem witness_EachRegisterHasItsWriter :
    (∃ t, step (hosting (.regWrite 0x08 .w32 1)) = .next t ∧ t.clen ≠ (hosting (.regWrite 0x08 .w32 1)).clen) ∧
    (∃ t, step (hosting (.regWrite 0x0C .w32 1)) = .next t ∧ t.mlen ≠ (hosting (.regWrite 0x0C .w32 1)).mlen) ∧
    (∃ t, step (hosting (.regWrite 0x00 .w32 1)) = .next t ∧ t.cmdl ≠ (hosting (.regWrite 0x00 .w32 1)).cmdl) ∧
    (∃ t, step (hosting (.bufWrite .mbuf 3 1)) = .next t ∧ t.mbuf ≠ (hosting (.bufWrite .mbuf 3 1)).mbuf) ∧
    (∃ t, step (latched 0x02 heldB) = .next t ∧ t.hdr ≠ heldB.hdr ∧ t.rlen ≠ heldB.rlen) ∧
    ∃ t, step (latched 0x03 heldB) = .next t ∧ t.cap ≠ heldB.cap :=
  ⟨⟨_, rfl, by decide⟩, ⟨_, rfl, by decide⟩, ⟨_, rfl, by decide⟩, ⟨_, rfl, by decide⟩,
    ⟨_, rfl, by decide +kernel⟩, _, rfl, by decide +kernel⟩

theorem witness_BusAddressLeadsBackToItsTarget : small.placementOk := by decide

theorem witness_IdleMachineKeepsItsState :
    State.reset.fault = none ∧ State.reset.status.busy = false ∧ State.reset.prog = [] ∧
    State.reset.nextTurn ≠ .reset := by decide

theorem witness_EnabledEngineIsEventuallyTaken :
    ({ hostingBusy .wait with turns := [.host, .host] }).fault = none ∧
    ({ hostingBusy .wait with turns := [.host, .host] }).status.busy = true ∧
    (∀ x ∈ ({ hostingBusy .wait with turns := [.host, .host] }).turns, x ≠ .reset) ∧
    ∀ op ∈ ({ hostingBusy .wait with turns := [.host, .host] }).prog, op = .wait ∨ op = .regRead 0x04 .w32 := by decide

theorem witness_StepKeepsTheInvariant :
    (hosting (.bufWrite .cbuf 47 1)).Inv ∧ ∃ t, step (hosting (.bufWrite .cbuf 47 1)) = .next t :=
  ⟨⟨by decide, by decide, by decide, by decide, by decide, by decide, by decide, by decide⟩, _, rfl⟩

theorem witness_ResetMeetsTheInvariant : small.wf := by decide

/-- The host is about to write the word of NOP to CMD, its last operation. -/
def lastWrite : State := hosting (.regWrite 0x00 .w32 0)

/-- The state before NOP runs, after `lastWrite`. -/
def lastAccepted : State := { lastWrite with prog := [], turns := [], status := ⟨true, false, 0⟩ }

/-- The state after NOP. -/
def lastDone : State := { lastAccepted with status := ⟨false, true, 0⟩ }

/-- An accepted NOP ends at its completion, and a `wait` that reads BUSY = 0 ends its program. -/
theorem witness_EndsAreUnique :
    CommandEnd lastWrite 0 2 lastDone ∧ ∃ t, ProgramEnd (hosting .wait) 0 t := by
  refine ⟨⟨⟨by decide, [], by decide⟩, by decide, rfl, by decide, fun j u h₁ h₂ hu => ?_⟩, ?_⟩
  · obtain rfl : j = 1 := by omega
    obtain rfl : lastAccepted = u := Host.Outcome.next.inj hu
    decide
  · exact ⟨_, ⟨_, _, rfl, (by decide : (hosting .wait).hostMoves .wait []), rfl⟩, rfl, rfl, rfl⟩

theorem witness_ProgramLeftBusyHasNoEnd :
    Sys2Proof.core.run 0 lastWrite = .next lastWrite ∧ lastWrite.status.busy = false ∧
    lastWrite.hostMoves (.regWrite 0x00 .w32 0) [] := ⟨rfl, by decide, by decide⟩

theorem witness_AcceptedCommandEnds :
    ∀ s ∈ ([lastWrite, { lastWrite with prog := [.regWrite 0x00 .w32 0, .wait, .regRead 0x04 .w32], turns := [] }] :
        List State),
      s.status.busy = false ∧ s.hostMoves (.regWrite 0x00 .w32 0) s.prog.tail ∧ (∀ x ∈ s.turns, x ≠ .reset) ∧
      ∀ op ∈ s.prog.tail, op = .wait ∨ op = .regRead 0x04 .w32 := by decide

end Sys2Proof.Tests
end

section
/-!
PROOFS. Everything that an engine step can leave and what a host turn comes to.
-/

namespace Sys2Proof.Machine

/-- Everything that running the latched word can leave, by what it wrote beside STATUS and FAULT (R110 to R117). -/
inductive EngineEffect (s : State) : State → Prop
  /-- An operand byte was never written (R36). -/
  | faulted : EngineEffect s (s.setFault .uninitRead)
  /-- Nothing but STATUS is written. -/
  | ended (e : Err) : EngineEffect s (s.complete e)
  /-- An ENC rewrote carrier bytes that were already written (R49, R50). -/
  | encoded (sch : Scheme) (m : Memory) (hi : decode s.cmdl = .ok (encOf sch)) (hwf : s.cbuf.wf → m.wf)
      (hmem : ∀ c ∈ m, ∃ v, (c.1, v) ∈ s.cbuf) : EngineEffect s (State.complete { s with cbuf := m } .ok)
  /-- A DEC failed after its header was read (R90, R98). -/
  | headerRead (sch : Scheme) (e : Err) (hi : decode s.cmdl = .ok (decOf sch)) :
      EngineEffect s ((s.withHdr (streamHeader sch s.cbuf)).complete e)
  /-- A DEC delivered a message (R117). -/
  | delivered (sch : Scheme) (out : List Byte) (hi : decode s.cmdl = .ok (decOf sch)) (hready : s.payloadReady sch)
      (hlen : out.length = streamHeader sch s.cbuf / 8) :
      EngineEffect s (((s.withHdr (streamHeader sch s.cbuf)).deliver (streamHeader sch s.cbuf) out).complete .ok)
  /-- A CAP wrote a capacity (R111). -/
  | measured (sch : Scheme) (hi : decode s.cmdl = .ok (capOf sch)) (hfits : s.carrierLen ≤ s.params.nMax) :
      EngineEffect s (State.complete { s with cap := BitVec.ofNat 32 (s.carrierLen * units sch) } .ok)

/-- What a latched ENC can leave. -/
theorem EngineEffect.of_encodeSeq {s t : State} {sch : Scheme} (hi : decode s.cmdl = .ok (encOf sch))
    (h : (encodeSeq sch s).finish s = .next t) : EngineEffect s t := by
  rcases encodeSeq_cases sch s with
    ⟨-, hx⟩ | ⟨-, -, ⟨-, hx⟩ | ⟨-, ⟨-, hx⟩ | ⟨-, m, hx, -, -, hwf, hmem⟩⟩⟩ <;>
    rw [hx] at h <;> obtain rfl := Host.Outcome.next.inj h
  · exact .ended _
  · exact .ended _
  · exact .faulted
  · exact .encoded sch m hi hwf hmem

/-- What a latched DEC can leave. -/
theorem EngineEffect.of_decodeSeq {s t : State} {sch : Scheme} (hi : decode s.cmdl = .ok (decOf sch))
    (h : (decodeSeq sch s).finish s = .next t) : EngineEffect s t := by
  rcases decodeSeq_cases sch s with
    ⟨-, hx⟩ | ⟨-, ⟨-, hx⟩ | ⟨-, -, hx⟩ | ⟨-, ⟨-, hx⟩ | ⟨-, -, hx⟩ |
      ⟨hready, ⟨-, hx⟩ | ⟨-, -, hx⟩ | ⟨-, -, out, hx, hlen, -⟩⟩⟩⟩ <;>
    rw [hx] at h <;> obtain rfl := Host.Outcome.next.inj h
  · exact .ended _
  · exact .ended _
  · exact .faulted
  · exact .headerRead sch _ hi
  · exact .faulted
  · exact .headerRead sch _ hi
  · exact .headerRead sch _ hi
  · exact .delivered sch out hi hready hlen

/-- What a latched CAP can leave. -/
theorem EngineEffect.of_capSeq {s t : State} {sch : Scheme} (hi : decode s.cmdl = .ok (capOf sch))
    (h : (capSeq sch s).finish s = .next t) : EngineEffect s t := by
  rcases capSeq_cases sch s with ⟨-, hx⟩ | ⟨hfits, hx⟩ <;>
    rw [hx] at h <;> obtain rfl := Host.Outcome.next.inj h
  · exact .ended _
  · exact .measured sch hi (Nat.le_of_not_lt hfits)

/-- Running the latched word has one of the listed effects. -/
theorem runLatched_effect {s t : State} (h : runLatched s = .next t) : EngineEffect s t := by
  rcases runLatched_cases s with ⟨i, hi, hx⟩ | ⟨-, hx⟩ <;> rw [hx] at h
  · rcases Instr.kinds i with rfl | ⟨sch, rfl | rfl | rfl⟩
    · obtain rfl := Host.Outcome.next.inj h
      exact .ended _
    · exact .of_encodeSeq hi (exec_encOf sch s ▸ h)
    · exact .of_decodeSeq hi (exec_decOf sch s ▸ h)
    · exact .of_capSeq hi (exec_capOf sch s ▸ h)
  · obtain rfl := Host.Outcome.next.inj h
    exact .ended _

/-- A host turn changes nothing or performs the first operation of the program. -/
theorem hostTurn_cases (s : State) :
    hostTurn s = s ∨ ∃ op rest, s.prog = op :: rest ∧ hostTurn s = hostPerform op s := by
  unfold hostTurn
  cases s.prog with
  | nil => exact .inl rfl
  | cons op rest => exact .inr ⟨op, rest, rfl, rfl⟩

end Sys2Proof.Machine
end

section
/-!
PROOFS. Reset establishes the invariant and every step keeps it (O47).
-/

namespace Sys2Proof.Machine

/-- R7, R9, R90, R98: a header within a carrier that fits CBUF counts no more bytes than OBUF has. -/
theorem header_div_le_oMax {p : Params} (hp : p.sizesOk) {sch : Scheme} {n hdr : Nat} (hn : n ≤ p.nMax)
    (hh : hdr ≤ headerLimit sch n) : hdr / 8 ≤ p.oMax := by
  obtain ⟨-, -, -, -, ho⟩ := hp
  cases sch <;> simp only [headerLimit] at hh <;> omega

/-- A buffer stays inside its size when a byte inside it is written. -/
theorem Memory.fits_write {m : Memory} {n a : Nat} (h : m.fits n) (ha : a < n) (v : Byte) : (m.write a v).fits n := by
  intro c hc
  rcases Memory.mem_write hc with rfl | hc
  · exact ha
  · exact h c hc

/-- A buffer stays inside its size when bytes inside it are written. -/
theorem Memory.fits_writeBytes {m : Memory} {n a : Nat} {vs : List Byte} (h : m.fits n) (ha : a + vs.length ≤ n) :
    (m.writeBytes a vs).fits n := by
  intro c hc
  rcases Memory.mem_writeBytes hc with ⟨-, hc⟩ | hc
  · omega
  · exact h c hc

/-- A write leaves every written byte written (R36). -/
theorem Memory.isSome_read_write {m : Memory} {b : Nat} (h : (m.read b).isSome = true) (a : Nat) (v : Byte) :
    ((m.write a v).read b).isSome = true := by
  rw [Memory.read_write]
  split_ifs
  · rfl
  · exact h

/-- Reset establishes the invariant for legal parameters. -/
theorem inv_resetWith {p : Params} (hp : p.wf) : (State.resetWith p).Inv where
  params := hp
  canonical := ⟨.nil, .nil, .nil⟩
  inside := by simp [State.resetWith]
  busyClear := by simp [State.resetWith]
  errCode := by simp [State.resetWith]
  fresh := by simp [State.resetWith]
  capBound := by simp [State.resetWith]
  message := by simp [State.resetWith]

namespace State.Inv

variable {s : State}

/-- Acceptance clears DONE and ERR (R109). -/
theorem accept (hi : s.Inv) (v : Word) : (s.accept v).Inv :=
  { hi with
    busyClear := fun _ => ⟨rfl, rfl⟩
    errCode := by simp [Status.accepted]
    fresh := fun hb => by simp [Status.accepted] at hb }

/-- Completion clears BUSY and sets DONE with a code of R121 (R110). -/
theorem complete (hi : s.Inv) (e : Err) : (s.complete e).Inv :=
  { hi with
    busyClear := fun hb => by simp [Status.completed] at hb
    errCode := Err.code_le e
    fresh := fun _ hd => by simp [Status.completed] at hd }

/-- A host write of a byte inside its buffer (R47). -/
theorem withBuf_write (hi : s.Inv) {b : Buf} {a : Nat} (ha : a < bufSize s.params b) (v : Byte) :
    (s.withBuf b ((s.buf b).write a v)).Inv := by
  obtain ⟨hc, hm, ho⟩ := hi.canonical
  obtain ⟨fc, fm, fo⟩ := hi.inside
  obtain ⟨hlen, hread⟩ := hi.message
  cases b with
  | cbuf =>
    exact { hi with
      canonical := ⟨Memory.wf_write hc a v, hm, ho⟩
      inside := ⟨Memory.fits_write fc ha v, fm, fo⟩ }
  | mbuf =>
    exact { hi with
      canonical := ⟨hc, Memory.wf_write hm a v, ho⟩
      inside := ⟨fc, Memory.fits_write fm ha v, fo⟩ }
  | obuf =>
    exact { hi with
      canonical := ⟨hc, hm, Memory.wf_write ho a v⟩
      inside := ⟨fc, fm, Memory.fits_write fo ha v⟩
      message := ⟨hlen, fun k hk => Memory.isSome_read_write (hread k hk) a v⟩ }

/-- A carrier rewritten in place (R49). -/
theorem withCarrier (hi : s.Inv) {m : Memory} (hwf : s.cbuf.wf → m.wf)
    (hmem : ∀ c ∈ m, ∃ v, (c.1, v) ∈ s.cbuf) : State.Inv { s with cbuf := m } := by
  obtain ⟨hc, hm, ho⟩ := hi.canonical
  obtain ⟨fc, fm, fo⟩ := hi.inside
  exact { hi with
    canonical := ⟨hwf hc, hm, ho⟩
    inside := ⟨fun c h => (hmem c h).elim fun v hv => fc (c.1, v) hv, fm, fo⟩ }

/-- While BUSY = 1 the results may be written, for a command has been accepted. -/
theorem withHdr (hi : s.Inv) (hb : s.status.busy = true) (hdr : Nat) : (s.withHdr hdr).Inv :=
  { hi with fresh := fun h => by simp [hb] at h }

/-- R33, R117: a message that fits OBUF is delivered. -/
theorem deliver (hi : s.Inv) (hb : s.status.busy = true) {hdr : Nat} {out : List Byte}
    (hlen : out.length = hdr / 8) (hfits : hdr / 8 ≤ s.params.oMax) : (s.deliver hdr out).Inv := by
  obtain ⟨hc, hm, ho⟩ := hi.canonical
  obtain ⟨fc, fm, fo⟩ := hi.inside
  have hr : (BitVec.ofNat 32 (hdr / 8)).toNat ≤ hdr / 8 := by
    rw [BitVec.toNat_ofNat]
    exact Nat.mod_le _ _
  exact { hi with
    canonical := ⟨hc, hm, Memory.wf_writeBytes ho 0 out⟩
    inside := ⟨fc, fm, Memory.fits_writeBytes fo (by rwa [Nat.zero_add, hlen])⟩
    fresh := fun h => by simp [hb] at h
    message := by
      refine ⟨hr.trans hfits, fun a ha => ?_⟩
      have hlt : a < out.length := by
        rw [hlen]
        exact lt_of_lt_of_le ha hr
      simp [Memory.read_writeBytes, hlt] }

/-- R83: a capacity of a carrier that fits CBUF is written. -/
theorem withCap (hi : s.Inv) (hb : s.status.busy = true) {n : Nat} (hn : n ≤ s.params.nMax) (sch : Scheme) :
    State.Inv { s with cap := BitVec.ofNat 32 (n * units sch) } :=
  { hi with
    fresh := fun h => by simp [hb] at h
    capBound := by
      have hu : n * units sch ≤ 2 * s.params.nMax := by cases sch <;> simp only [units] <;> omega
      rw [BitVec.toNat_ofNat]
      exact (Nat.mod_le _ _).trans hu }

/-- Running the latched word keeps the invariant. -/
theorem of_engineEffect {t : State} (hi : s.Inv) (hb : s.status.busy = true) (h : EngineEffect s t) : t.Inv := by
  cases h with
  | faulted => exact { hi with }
  | ended e => exact hi.complete e
  | encoded sch m _ hwf hmem => exact (hi.withCarrier hwf hmem).complete .ok
  | headerRead sch e _ => exact (hi.withHdr hb _).complete e
  | delivered sch out _ hready hlen =>
    obtain ⟨⟨hn, -, -⟩, hlimit, -⟩ := hready
    exact ((hi.withHdr hb _).deliver hb hlen (header_div_le_oMax hi.params.1 hn hlimit)).complete .ok
  | measured sch _ hfits => exact (hi.withCap hb hfits sch).complete .ok

/-- A host operation keeps the invariant; a fault, a reply or a length touches nothing it speaks of. -/
theorem of_hostPerform (hi : s.Inv) (op : HostOp) : (hostPerform op s).Inv := by
  rcases hostPerform_cases op s with ⟨r, h⟩ | ⟨v, h⟩ | ⟨v, h⟩ | ⟨v, -, -, h⟩ | ⟨v, -, h⟩ | ⟨v, -, h⟩ | h |
    ⟨b, a, v, -, -, ha, h⟩ <;> rw [h]
  · exact { hi with }
  · exact { hi with }
  · exact { hi with }
  · exact { hi.accept v with }
  · exact { hi with }
  · exact { hi with }
  · exact { hi with }
  · exact { hi.withBuf_write ha v with }

/-- A turn of the host keeps the invariant. -/
theorem of_hostTurn (hi : s.Inv) : (hostTurn s).Inv := by
  rcases hostTurn_cases s with h | ⟨op, _, -, h⟩ <;> rw [h]
  · exact hi
  · exact hi.of_hostPerform op

end State.Inv

/-- Settles O47, by the turn: the engine's by what it wrote, the host's by its operation, reset by its values. -/
theorem stepKeepsTheInvariant : Obligations.StepKeepsTheInvariant := by
  unfold Obligations.StepKeepsTheInvariant
  intro s t hi h
  have hpop : s.popTurn.Inv := { hi with }
  obtain ⟨-, ⟨-, hb, hr⟩ | ⟨-, -, rfl⟩ | ⟨-, rfl⟩ | ⟨-, rfl⟩⟩ := step_cases h
  · exact hpop.of_engineEffect hb (runLatched_effect hr)
  · exact hpop
  · exact hpop.of_hostTurn
  · exact { inv_resetWith hi.params with }

end Sys2Proof.Machine
end

section
/-!
PROOFS. Who writes STATUS and each register: what a host operation and an engine step may change (O42, O43).
-/

namespace Sys2Proof.Machine

/-- What a host operation may change of the registers and MBUF, and the one operation that does it. -/
structure HostWrites (op : HostOp) (s t : State) : Prop where
  params : t.params = s.params
  /-- R109: STATUS by the acceptance of a command alone. -/
  status : t.status ≠ s.status →
    op = .regWrite 0x00 .w32 t.cmdl ∧ s.status.busy = false ∧ t.status = Status.accepted
  clen : t.clen ≠ s.clen → op = .regWrite 0x08 .w32 t.clen
  mlen : t.mlen ≠ s.mlen → op = .regWrite 0x0C .w32 t.mlen
  cmdl : t.cmdl ≠ s.cmdl → op = .regWrite 0x00 .w32 t.cmdl
  mbuf : t.mbuf ≠ s.mbuf → ∃ a v, op = .bufWrite .mbuf a v
  hdr : t.hdr = s.hdr
  rlen : t.rlen = s.rlen
  cap : t.cap = s.cap

/-- What an engine step may change of the registers and MBUF, and the latched command that does it. -/
structure EngineWrites (s t : State) : Prop where
  params : t.params = s.params
  /-- R110: STATUS by completion alone. -/
  status : t.status ≠ s.status → ∃ e, t.status = Status.completed e
  clen : t.clen = s.clen
  mlen : t.mlen = s.mlen
  cmdl : t.cmdl = s.cmdl
  mbuf : t.mbuf = s.mbuf
  hdr : t.hdr ≠ s.hdr → ∃ sch, decode s.cmdl = .ok (decOf sch)
  rlen : t.rlen ≠ s.rlen → t.status.err = 0 ∧ ∃ sch, decode s.cmdl = .ok (decOf sch)
  cap : t.cap ≠ s.cap → t.status.err = 0 ∧ ∃ sch, decode s.cmdl = .ok (capOf sch)

/-- Every host operation writes no more than that. -/
theorem hostPerform_writes (op : HostOp) (s : State) : HostWrites op s (hostPerform op s) := by
  rcases hostPerform_cases op s with ⟨r, h⟩ | ⟨v, h⟩ | ⟨v, h⟩ | ⟨v, rfl, hb, h⟩ | ⟨v, rfl, h⟩ | ⟨v, rfl, h⟩ | h |
    ⟨b, a, v, rfl, -, -, h⟩ <;> rw [h]
  · constructor <;> simp
  · constructor <;> simp
  · constructor <;> simp
  · constructor <;> simp [hb, Reg.offset]
  · constructor <;> simp [Reg.offset]
  · constructor <;> simp [Reg.offset]
  · constructor <;> simp
  · cases b <;> constructor <;> simp

/-- R110, R121: OK completes with code 0. -/
@[simp] theorem Status.completed_ok_err : (Status.completed .ok).err = 0 := rfl

/-- Every engine step writes no more than that. -/
theorem EngineEffect.writes {s t : State} (h : EngineEffect s t) : EngineWrites s t := by
  cases h with
  | faulted => constructor <;> simp
  | ended e => constructor <;> simp
  | encoded sch m hi _ _ => constructor <;> simp
  | headerRead sch e hi => constructor <;> simp [hi]
  | delivered sch out hi _ _ => constructor <;> simp [hi]
  | measured sch hi _ => constructor <;> simp [hi]

/-- A step is an engine step, a host operation, a turn in which nothing is done, or reset, and writes no more than
that. -/
theorem step_writes {s t : State} (h : step s = .next t) :
    (s.engineMoves ∧ s.status.busy = true ∧ EngineWrites s t) ∨
    (∃ op rest, s.hostMoves op rest ∧ HostWrites op s t) ∨
    t = s.popTurn ∨
    (s.nextTurn = .reset ∧ t = s.popTurn.assertReset) := by
  obtain ⟨hf, ⟨hn, hb, hr⟩ | ⟨-, -, ht⟩ | ⟨hn, rfl⟩ | hreset⟩ := step_cases h
  · have hw := (runLatched_effect hr).writes
    exact .inl ⟨⟨hf, hn⟩, hb, { hw with }⟩
  · exact .inr (.inr (.inl ht))
  · rcases hostTurn_cases s.popTurn with ht | ⟨op, rest, hp, ht⟩
    · exact .inr (.inr (.inl ht))
    · have hw := hostPerform_writes op s.popTurn
      rw [ht]
      exact .inr (.inl ⟨op, rest, ⟨hf, hn, hp⟩, { hw with }⟩)
  · exact .inr (.inr (.inr hreset))

/-- Settles O42: STATUS is written by acceptance in a host operation, by completion in an engine step, and by reset. -/
theorem statusWrittenOnlyByAcceptanceAndCompletion :
    Obligations.StatusWrittenOnlyByAcceptanceAndCompletion := by
  unfold Obligations.StatusWrittenOnlyByAcceptanceAndCompletion
  intro s t h hne
  rcases step_writes h with ⟨he, hb, hw⟩ | ⟨op, rest, hm, hw⟩ | rfl | ⟨hn, rfl⟩
  · obtain ⟨e, hst⟩ := hw.status hne
    rw [hst]
    exact .inr (.inl ⟨he, hb, rfl, rfl, Err.code_le e⟩)
  · obtain ⟨rfl, hb, hst⟩ := hw.status hne
    exact .inl ⟨t.cmdl, rest, hm, hb, hst, rfl⟩
  · exact absurd rfl hne
  · exact .inr (.inr ⟨hn, rfl⟩)

/-- Settles O43, by the agent whose turn it is. -/
theorem eachRegisterHasItsWriter : Obligations.EachRegisterHasItsWriter := by
  unfold Obligations.EachRegisterHasItsWriter
  intro s t h hn
  rcases step_writes h with ⟨he, -, hw⟩ | ⟨op, rest, hm, hw⟩ | rfl | ⟨hreset, -⟩
  · exact ⟨absurd hw.clen, absurd hw.mlen, absurd hw.cmdl, absurd hw.mbuf, fun hne => ⟨he, hw.hdr hne⟩,
      fun hne => ⟨he, hw.rlen hne⟩, fun hne => ⟨he, hw.cap hne⟩, hw.params⟩
  · exact ⟨fun hne => ⟨rest, hw.clen hne ▸ hm⟩, fun hne => ⟨rest, hw.mlen hne ▸ hm⟩,
      fun hne => ⟨rest, hw.cmdl hne ▸ hm⟩,
      fun hne => (hw.mbuf hne).elim fun a ⟨v, hop⟩ => ⟨a, v, rest, hop ▸ hm⟩,
      absurd hw.hdr, absurd hw.rlen, absurd hw.cap, hw.params⟩
  · simp
  · exact absurd hreset hn

end Sys2Proof.Machine
end

section
/-!
PROOFS. The layout of STATUS (O13), that FAULT stops the machine (O17), and that an operand never written sets FAULT
(O32).
-/

namespace Sys2Proof.Machine

/-- Settles O13, by the position of the bit. -/
theorem statusWordLayout : Obligations.StatusWordLayout := by
  unfold Obligations.StatusWordLayout
  intro st i
  unfold Status.word
  simp only [BitVec.getLsbD_append]
  match i with
  | 0 => simp
  | 1 => simp
  | 2 | 3 => simp
  | i + 4 =>
    by_cases hi : i < 4
    · have h8 : i + 4 < 8 := by omega
      simp [hi, h8]
    · have h8 : ¬ i + 4 < 8 := by omega
      simp [hi, h8]

/-- R37: a state with FAULT set has no step but the fault. -/
theorem step_of_fault {s : State} {r : Fault} (hf : s.fault = some r) : step s = .fault r := by
  unfold step
  simp [hf]

/-- R37: a run from a state with FAULT set stops at once. -/
theorem run_of_fault {s : State} {r : Fault} (hf : s.fault = some r) (k : Nat) :
    Sys2Proof.core.run (k + 1) s = .fault r := by
  simp [Host.Core.run, Sys2Proof.core, step_of_fault hf]

/-- Settles O17: a state with FAULT set answers the fault, so one that has a next state has FAULT = NONE. -/
theorem faultStopsTheMachine : Obligations.FaultStopsTheMachine := by
  unfold Obligations.FaultStopsTheMachine
  exact ⟨rfl, fun s r hf => ⟨step_of_fault hf, run_of_fault hf⟩, fun s t h => (step_cases h).1⟩

/-- R36, R116: an ENC whose checks pass faults when a byte of the message or of the carrier in reach was never
written. -/
theorem encodeSeq_unwritten {sch : Scheme} {s : State} (hn : s.carrierLen ≤ s.params.nMax)
    (hm : s.messageLen ≤ s.params.mMax) (hfit : 32 + 8 * s.messageLen ≤ s.carrierLen * units sch)
    (hw : ¬ s.mbuf.writtenIn 0 s.messageLen ∨ ¬ s.cbuf.writtenIn 0 ((32 + 8 * s.messageLen) / units sch)) :
    encodeSeq sch s = .faults .uninitRead := by
  rcases encodeSeq_cases sch s with ⟨hlong, -⟩ | ⟨-, -, ⟨hshort, -⟩ | ⟨-, ⟨-, hx⟩ | ⟨⟨⟨-, -, hmw, hcw⟩, -⟩, -⟩⟩⟩
  · omega
  · omega
  · exact hx
  · exact hw.elim (absurd hmw) (absurd hcw)

/-- R36, R90, R98: a DEC whose header fits the carrier faults when a byte of the header was never written. -/
theorem decodeSeq_unwritten_header {sch : Scheme} {s : State} (hn : s.carrierLen ≤ s.params.nMax)
    (hfit : headerBytes sch ≤ s.carrierLen) (hw : ¬ s.cbuf.writtenIn 0 (headerBytes sch)) :
    decodeSeq sch s = .faults .uninitRead := by
  rcases decodeSeq_cases sch s with ⟨hlong, -⟩ | ⟨-, ⟨hshort, -⟩ | ⟨-, -, hx⟩ | ⟨⟨-, -, hh⟩, -⟩⟩
  · omega
  · omega
  · exact hx
  · exact absurd hh hw

/-- R36, R90, R98: a DEC whose header guard passes faults when a byte of the payload was never written. -/
theorem decodeSeq_unwritten_payload {sch : Scheme} {s : State} (hr : s.headerReady sch)
    (hlimit : streamHeader sch s.cbuf ≤ headerLimit sch s.carrierLen)
    (hw : ¬ s.cbuf.writtenIn (headerBytes sch) (payloadBytes sch (streamHeader sch s.cbuf))) :
    decodeSeq sch s = .faults .uninitRead := by
  obtain ⟨hn, hfit, hh⟩ := hr
  rcases decodeSeq_cases sch s with
    ⟨hlong, -⟩ | ⟨-, ⟨hshort, -⟩ | ⟨-, hnh, -⟩ | ⟨-, ⟨hbeyond, -⟩ | ⟨-, -, hx⟩ | ⟨⟨-, -, hp⟩, -⟩⟩⟩
  · omega
  · omega
  · exact absurd hh hnh
  · omega
  · exact hx
  · exact absurd hp hw

/-- Settles O32, by the three places where a command meets a byte never written. -/
theorem unwrittenOperandSetsFault : Obligations.UnwrittenOperandSetsFault := by
  unfold Obligations.UnwrittenOperandSetsFault
  intro s sch hn
  refine ⟨fun hm hfit hw => ?_, fun hfit hw => ?_, fun hr hlimit hw => ?_⟩
  · rw [exec_encOf, encodeSeq_unwritten hn hm hfit hw]
    rfl
  · rw [exec_decOf, decodeSeq_unwritten_header hn hfit hw]
    rfl
  · rw [exec_decOf, decodeSeq_unwritten_payload hr hlimit hw]
    rfl

end Sys2Proof.Machine
end

section
/-!
PROOFS. The effect of a command is a function of its operands (O41): on two states with the same operands, every
sequence ends the same way and writes the same values.
-/

namespace Sys2Proof.Machine

/-- Executions from `s` and from `s'` that end in the same way and wrote the same values. -/
inductive SameResult (s s' : State) : Result → Result → Prop
  | fault (r : Fault) : SameResult s s' (.faults r) (.faults r)
  | status (e : Err) : SameResult s s' (.ends e s) (.ends e s')
  | carrier (m m' : Memory) (hm : ∀ a < s.carrierLen, m.read a = m'.read a) :
      SameResult s s' (.ends .ok { s with cbuf := m }) (.ends .ok { s' with cbuf := m' })
  | header (e : Err) (hdr : Nat) : SameResult s s' (.ends e (s.withHdr hdr)) (.ends e (s'.withHdr hdr))
  | message (hdr : Nat) (out : List Byte) :
      SameResult s s' (.ends .ok ((s.withHdr hdr).deliver hdr out)) (.ends .ok ((s'.withHdr hdr).deliver hdr out))
  | capacity (c : Word) : SameResult s s' (.ends .ok { s with cap := c }) (.ends .ok { s' with cap := c })

/-- The outcomes of `SameResult` in the registers and buffers: the conclusion of O41. -/
structure SameEffect (s s' t t' : State) : Prop where
  fault : t.fault = t'.fault
  status : t.fault = none → t.status = t'.status
  carrier : ∀ a < s.carrierLen, t.cbuf.read a = t'.cbuf.read a
  hdr : SameWrite s.hdr t.hdr s'.hdr t'.hdr
  rlen : SameWrite s.rlen t.rlen s'.rlen t'.rlen
  cap : SameWrite s.cap t.cap s'.cap t'.cap
  obuf : ∀ a, SameWrite (s.obuf.read a) (t.obuf.read a) (s'.obuf.read a) (t'.obuf.read a)

namespace SameOperands

variable {s s' : State}

theorem carrierLen_eq (h : SameOperands s s') : s.carrierLen = s'.carrierLen := congrArg BitVec.toNat h.clen

theorem messageLen_eq (h : SameOperands s s') : s.messageLen = s'.messageLen := congrArg BitVec.toNat h.mlen

theorem carrierTooLong_iff (h : SameOperands s s') : s.carrierTooLong ↔ s'.carrierTooLong := by
  simp only [State.carrierTooLong, h.params, h.carrierLen_eq]

theorem messageTooLong_iff (h : SameOperands s s') : s.messageTooLong ↔ s'.messageTooLong := by
  simp only [State.messageTooLong, h.params, h.messageLen_eq]

end SameOperands

/-- A place that both runs leave alone. -/
theorem SameWrite.kept {α : Type} {x y : α} : SameWrite x x y y := .inl ⟨rfl, rfl⟩

/-- A place where both runs write one value. -/
theorem SameWrite.written {α : Type} {x y z : α} : SameWrite x z y z := .inr rfl

/-- The same bytes written from index 0 on are the same write at every index. -/
theorem Memory.sameWrite_writeBytes (m m' : Memory) (out : List Byte) (a : Nat) :
    SameWrite (m.read a) ((m.writeBytes 0 out).read a) (m'.read a) ((m'.writeBytes 0 out).read a) := by
  rw [Memory.read_writeBytes, Memory.read_writeBytes]
  split_ifs
  · exact SameWrite.written
  · exact SameWrite.kept

/-- R39, R88, R96, R102: the embedding of a frame that fits a carrier of `n` bytes reads and writes it below `n`
alone. -/
theorem embed_congr {n : Nat} {m m' : Memory} (h : ∀ a < n, m.read a = m'.read a) (sch : Scheme) {msg : List Byte}
    (hfit : 32 + 8 * msg.length ≤ n * units sch) :
    (embed sch (frame msg) m = none ∧ embed sch (frame msg) m' = none) ∨
    ∃ q q', embed sch (frame msg) m = some q ∧ embed sch (frame msg) m' = some q' ∧
      ∀ a < n, q.read a = q'.read a := by
  obtain ⟨fs, he, hlen, -⟩ := embed_eq_rewriteBytes sch msg
  rw [he, he]
  refine rewriteBytes_congr h fs ?_
  rw [hlen, Nat.zero_add]
  exact Nat.div_le_of_le_mul (Nat.mul_comm n _ ▸ hfit)

/-- R39: ENC. -/
theorem encodeSeq_same {s s' : State} (h : SameOperands s s') (sch : Scheme) :
    SameResult s s' (encodeSeq sch s) (encodeSeq sch s') := by
  unfold encodeSeq
  simp only [← h.carrierTooLong_iff, ← h.messageTooLong_iff, ← h.carrierLen_eq, ← h.messageLen_eq]
  split_ifs with hr hc
  · exact .status .range
  · exact .status .capacity
  · rw [← Memory.readBytes_congr h.message (Nat.zero_add _).le]
    cases hm : s.mbuf.readBytes 0 s.messageLen with
    | none => exact .fault .uninitRead
    | some msg =>
      have hfit : 32 + 8 * msg.length ≤ s.carrierLen * units sch := by
        rw [(Memory.readBytes_eq_some.mp hm).1]
        exact Nat.le_of_not_lt hc
      rcases embed_congr h.carrier sch hfit with ⟨he, he'⟩ | ⟨q, q', he, he', hq⟩
      · simp only [he, he']
        exact .fault .uninitRead
      · simp only [he, he']
        exact .carrier q q' hq

/-- R39: DEC. -/
theorem decodeSeq_same {s s' : State} (h : SameOperands s s') (sch : Scheme) :
    SameResult s s' (decodeSeq sch s) (decodeSeq sch s') := by
  unfold decodeSeq
  simp only [← h.carrierTooLong_iff, ← h.carrierLen_eq]
  split_ifs with hr
  · exact .status .range
  · rw [← extract_congr h.carrier]
    cases extract sch s.carrierLen s.cbuf with
    | short => exact .status .invalidHeader
    | unwritten => exact .fault .uninitRead
    | tooLong hdr => exact .header .invalidHeader hdr
    | bits hdr p =>
      cases hp : parse hdr p with
      | error e => simpa only [hp] using .header e hdr
      | ok out => simpa only [hp] using .message hdr out

/-- R39: CAP. -/
theorem capSeq_same {s s' : State} (h : SameOperands s s') (sch : Scheme) :
    SameResult s s' (capSeq sch s) (capSeq sch s') := by
  unfold capSeq
  simp only [← h.carrierTooLong_iff, ← h.carrierLen_eq]
  split_ifs
  · exact .status .range
  · exact .capacity _

/-- R39: executing a command in two states with the same operands comes to the same. -/
theorem exec_same {s s' : State} (h : SameOperands s s') (i : Instr) :
    ∃ x x' : Result, exec i s = x.finish s ∧ exec i s' = x'.finish s' ∧ SameResult s s' x x' := by
  rcases Instr.kinds i with rfl | ⟨sch, rfl | rfl | rfl⟩
  · exact ⟨_, _, rfl, rfl, .status .ok⟩
  · exact ⟨_, _, exec_encOf sch s, exec_encOf sch s', encodeSeq_same h sch⟩
  · exact ⟨_, _, exec_decOf sch s, exec_decOf sch s', decodeSeq_same h sch⟩
  · exact ⟨_, _, exec_capOf sch s, exec_capOf sch s', capSeq_same h sch⟩

/-- The engine step around results that are the same has the same effect. -/
theorem SameResult.finish {s s' : State} {x x' : Result} (h : SameResult s s' x x')
    (hc : ∀ a < s.carrierLen, s.cbuf.read a = s'.cbuf.read a) (hf : s.fault = none) (hf' : s'.fault = none) :
    ∃ t t', x.finish s = .next t ∧ x'.finish s' = .next t' ∧ SameEffect s s' t t' := by
  have hff : s.fault = s'.fault := hf.trans hf'.symm
  cases h with
  | fault r => exact ⟨_, _, rfl, rfl, rfl, nofun, hc, .kept, .kept, .kept, fun _ => .kept⟩
  | status e => exact ⟨_, _, rfl, rfl, hff, fun _ => rfl, hc, .kept, .kept, .kept, fun _ => .kept⟩
  | carrier m m' hm => exact ⟨_, _, rfl, rfl, hff, fun _ => rfl, hm, .kept, .kept, .kept, fun _ => .kept⟩
  | header e hdr => exact ⟨_, _, rfl, rfl, hff, fun _ => rfl, hc, .written, .kept, .kept, fun _ => .kept⟩
  | message hdr out =>
    exact ⟨_, _, rfl, rfl, hff, fun _ => rfl, hc, .written, .written, .kept, Memory.sameWrite_writeBytes _ _ out⟩
  | capacity c => exact ⟨_, _, rfl, rfl, hff, fun _ => rfl, hc, .kept, .kept, .written, fun _ => .kept⟩

/-- Settles O41: both executions come to the same result, and the engine step around it writes the same. -/
theorem effectDependsOnlyOnOperands : Obligations.EffectDependsOnlyOnOperands := by
  unfold Obligations.EffectDependsOnlyOnOperands
  intro s s' i h hf hf'
  obtain ⟨x, x', hx, hx', hsame⟩ := exec_same h i
  obtain ⟨t, t', ht, ht', he⟩ := hsame.finish h.carrier hf hf'
  exact ⟨t, t', hx.trans ht, hx'.trans ht', he.fault, he.status, he.carrier, he.hdr, he.rlen, he.cap, he.obuf⟩

end Sys2Proof.Machine
end

section
/-!
PROOFS. The host's accesses to the registers and the buffers: what each operation comes to and the step that performs
it (O7, O8, O9, O10).
-/

namespace Sys2Proof.Machine

/-- The step that performs the next operation of the host's program. -/
theorem step_of_hostMoves {s : State} {op : HostOp} {rest : List HostOp} (h : s.hostMoves op rest) :
    step s = .next (hostPerform op s.popTurn) := by
  obtain ⟨hf, hn, hp⟩ := h
  exact step_hostPerform hf hn hp

/-- An operation that is done makes a step that leaves the operations after it. -/
theorem step_of_hostPerform_done {s t : State} {op : HostOp} {rest : List HostOp} (h : s.hostMoves op rest)
    (hx : hostPerform op s.popTurn = t.popOp) (hp : t.prog = s.prog) :
    step s = .next { t with prog := rest } := by
  obtain ⟨-, -, hprog⟩ := id h
  rw [step_of_hostMoves h, hx, State.popOp, hp, hprog, List.tail_cons]

/-- R37, log 8: an operation that raises a model fault makes a step that changes nothing but FAULT and the turn list. -/
theorem step_of_hostPerform_fault {s : State} {op : HostOp} {rest : List HostOp} {r : Fault}
    (h : s.hostMoves op rest) (hx : hostPerform op s.popTurn = s.popTurn.setFault r) :
    step s = .next { s with turns := s.turns.tail, fault := some r } := by
  rw [step_of_hostMoves h, hx]
  rfl

/-- R146: while BUSY = 1 every operation but `wait` and a read of STATUS is a hazard. -/
theorem hostPerform_hazard {s : State} {op : HostOp} (hb : s.status.busy = true) (hw : op ≠ .wait)
    (hs : op ≠ .regRead (Reg.offset .status) .w32) : hostPerform op s = s.setFault .hazardBusy := by
  cases op with
  | regRead o width =>
    have hn : ¬ isStatusRead o width := fun ⟨ho, hwidth⟩ => hs (by rw [ho, hwidth])
    simp only [hostPerform, hostRegRead, if_pos (And.intro hb hn)]
  | regWrite o width v => simp only [hostPerform, hostRegWrite, if_pos hb]
  | bufRead b a => simp only [hostPerform, hostBufRead, if_pos hb]
  | bufWrite b a v => simp only [hostPerform, hostBufWrite, if_pos hb]
  | wait => exact absurd rfl hw

/-- R146: the step of a hazard. -/
theorem step_hazard {s : State} {op : HostOp} {rest : List HostOp} (h : s.hostMoves op rest)
    (hb : s.status.busy = true) (hw : op ≠ .wait) (hs : op ≠ .regRead (Reg.offset .status) .w32) :
    step s = .next { s with turns := s.turns.tail, fault := some .hazardBusy } :=
  step_of_hostPerform_fault h (hostPerform_hazard hb hw hs)

/-- R24: a register's offset reaches it. -/
theorem regAccess_offset (reg : Reg) : regAccess (Reg.offset reg) .w32 = .ok reg := by
  cases reg <;> rfl

/-- R46: an access of another width or at an offset not a multiple of 4. -/
theorem regAccess_misaligned {o : Fin 64} {width : Width} (h : width ≠ .w32 ∨ o.val % 4 ≠ 0) :
    regAccess o width = .error .misaligned := if_pos h

/-- R24: no register stands at 0x1C to 0x3F. -/
theorem regAt_reserved : ∀ o : Fin 64, 0x1C ≤ o.val → regAt o = none := by decide

/-- R45: an aligned access at 0x1C to 0x3F. -/
theorem regAccess_reserved {o : Fin 64} (ha : o.val % 4 = 0) (h : 0x1C ≤ o.val) :
    regAccess o .w32 = .error .reservedOffset := by
  simp [regAccess, ha, regAt_reserved o h]

/-- R45, R46: an access that reaches no register raises its fault, whether it reads or writes. -/
theorem hostPerform_regAccess_error {s : State} {op : HostOp} {o : Fin 64} {width : Width} {r : Fault}
    (hb : s.status.busy = false) (hop : op = .regRead o width ∨ ∃ v, op = .regWrite o width v)
    (ha : regAccess o width = .error r) : hostPerform op s = s.setFault r := by
  rcases hop with rfl | ⟨v, rfl⟩
  · simp [hostPerform, hostRegRead, hb, ha]
  · simp [hostPerform, hostRegWrite, hb, ha]

/-- R43: a read of a register that the host may read returns its value. -/
theorem hostRegRead_offset {s : State} {reg : Reg}
    (h : s.status.busy = false ∨ Reg.offset reg = Reg.offset .status) :
    hostRegRead s (Reg.offset reg) .w32 = .ok (s.regValue reg) := by
  have hn : ¬ (s.status.busy = true ∧ ¬ isStatusRead (Reg.offset reg) .w32) := by
    rintro ⟨hb, hs⟩
    rcases h with hi | ho
    · simp [hi] at hb
    · exact hs ⟨ho, rfl⟩
  simp only [hostRegRead, if_neg hn, regAccess_offset]

/-- Taking a turn changes no register. -/
theorem State.regValue_popTurn (s : State) (reg : Reg) : s.popTurn.regValue reg = s.regValue reg := by
  cases reg <;> rfl

/-- A register write leaves the host's program. -/
theorem State.regStore_prog (s : State) (reg : Reg) (v : Word) : (s.regStore reg v).prog = s.prog := by
  cases reg <;> rfl

/-- R43: the step that reads a register. -/
theorem step_regRead {s : State} {reg : Reg} {rest : List HostOp}
    (h : s.hostMoves (.regRead (Reg.offset reg) .w32) rest)
    (hr : s.status.busy = false ∨ Reg.offset reg = Reg.offset .status) :
    step s = .next { s with
      turns := s.turns.tail, prog := rest, replies := s.replies ++ [.word (s.regValue reg)] } := by
  have hx : hostPerform (.regRead (Reg.offset reg) .w32) s.popTurn =
      (s.popTurn.reply (.word (s.regValue reg))).popOp := by
    simp only [hostPerform, hostRegRead_offset (s := s.popTurn) hr, State.regValue_popTurn]
  exact step_of_hostPerform_done h hx rfl

/-- R44: the step that writes a register of an idle engine. -/
theorem step_regWrite {s : State} {reg : Reg} {v : Word} {rest : List HostOp}
    (h : s.hostMoves (.regWrite (Reg.offset reg) .w32 v) rest) (hb : s.status.busy = false) :
    step s = .next { s.popTurn.regStore reg v with prog := rest } := by
  have hx : hostPerform (.regWrite (Reg.offset reg) .w32 v) s.popTurn = (s.popTurn.regStore reg v).popOp := by
    simp [hostPerform, hostRegWrite, hb, regAccess_offset]
  exact step_of_hostPerform_done h hx (State.regStore_prog _ reg v)

/-- Settles O7: each pair of the table is the offset and the value of a register; every other read of a busy engine is a
hazard. -/
theorem hostRegisterReads : Obligations.HostRegisterReads := by
  unfold Obligations.HostRegisterReads
  intro s o rest h
  refine ⟨fun v hr hmem => ?_, fun hb ho => step_hazard h hb nofun fun heq => ho (HostOp.regRead.inj heq).1⟩
  obtain ⟨reg, -, hreg⟩ : ∃ reg ∈ [Reg.cmd, .status, .clen, .mlen, .hdr, .rlen, .cap],
      (Reg.offset reg, s.regValue reg) = (o, v) := List.mem_map.mp hmem
  obtain ⟨rfl, rfl⟩ := Prod.mk.inj hreg
  exact step_regRead h hr

/-- Settles O8, by the register at the offset; every write to a busy engine is a hazard. -/
theorem hostRegisterWrites : Obligations.HostRegisterWrites := by
  unfold Obligations.HostRegisterWrites
  intro s o v rest h
  refine ⟨fun hb => ⟨?_, ?_, ?_, ?_⟩, fun hb => step_hazard h hb nofun nofun⟩
  · rintro rfl
    exact step_regWrite (reg := .cmd) h hb
  · rintro rfl
    exact step_regWrite (reg := .clen) h hb
  · rintro rfl
    exact step_regWrite (reg := .mlen) h hb
  · rintro (rfl | rfl | rfl | rfl)
    · exact step_regWrite (reg := .status) h hb
    · exact step_regWrite (reg := .hdr) h hb
    · exact step_regWrite (reg := .rlen) h hb
    · exact step_regWrite (reg := .cap) h hb

/-- Settles O9: an idle engine faults as `regAccess` answers; on a busy one the access is no read of STATUS. -/
theorem badRegisterAccessFaults : Obligations.BadRegisterAccessFaults := by
  unfold Obligations.BadRegisterAccessFaults
  intro s op o width rest h hop
  refine ⟨fun hb hbad => ?_, fun hb hw ha ho => ?_, fun hb hbad => ?_⟩
  · exact step_of_hostPerform_fault h (hostPerform_regAccess_error hb hop (regAccess_misaligned hbad))
  · subst hw
    exact step_of_hostPerform_fault h (hostPerform_regAccess_error hb hop (regAccess_reserved ha ho))
  · have hstatus : ¬ isStatusRead o width := by
      rintro ⟨rfl, rfl⟩
      revert hbad
      decide
    rcases hop with rfl | ⟨v, rfl⟩
    · exact step_hazard h hb nofun fun heq => hstatus (HostOp.regRead.inj heq)
    · exact step_hazard h hb nofun nofun

/-- Taking a turn changes no buffer. -/
theorem State.buf_popTurn (s : State) (b : Buf) : s.popTurn.buf b = s.buf b := by
  cases b <;> rfl

/-- R47: a buffer access beyond the buffer faults, whether it reads or writes. -/
theorem hostPerform_outOfRange {s : State} {op : HostOp} {b : Buf} {a : Nat} (hb : s.status.busy = false)
    (hop : op = .bufRead b a ∨ ∃ v, op = .bufWrite b a v) (ha : bufSize s.params b ≤ a) :
    hostPerform op s = s.setFault .outOfRange := by
  rcases hop with rfl | ⟨v, rfl⟩
  · simp [hostPerform, hostBufRead, hb, ha]
  · simp [hostPerform, hostBufWrite, hb, ha]

/-- R36, R47: a read inside the buffer of a byte never written faults. -/
theorem hostPerform_bufRead_unwritten {s : State} {b : Buf} {a : Nat} (hb : s.status.busy = false)
    (ha : a < bufSize s.params b) (hv : (s.buf b).read a = none) :
    hostPerform (.bufRead b a) s = s.setFault .uninitRead := by
  simp [hostPerform, hostBufRead, hb, Nat.not_le_of_lt ha, hv]

/-- R47: a read inside the buffer of a written byte returns it. -/
theorem hostPerform_bufRead_written {s : State} {b : Buf} {a : Nat} {v : Byte} (hb : s.status.busy = false)
    (ha : a < bufSize s.params b) (hv : (s.buf b).read a = some v) :
    hostPerform (.bufRead b a) s = (s.reply (.byte v)).popOp := by
  simp [hostPerform, hostBufRead, hb, Nat.not_le_of_lt ha, hv]

/-- R47: a write inside the buffer writes its byte. -/
theorem hostPerform_bufWrite {s : State} {b : Buf} {a : Nat} {v : Byte} (hb : s.status.busy = false)
    (ha : a < bufSize s.params b) :
    hostPerform (.bufWrite b a v) s = (s.withBuf b ((s.buf b).write a v)).popOp := by
  simp [hostPerform, hostBufWrite, hb, Nat.not_le_of_lt ha]

/-- R47: writing a byte leaves every other byte of the three buffers. -/
theorem State.read_withBuf_write_ne (s : State) {b c : Buf} {a x : Nat} (v : Byte) (h : c ≠ b ∨ x ≠ a) :
    ((s.withBuf b ((s.buf b).write a v)).buf c).read x = (s.buf c).read x := by
  by_cases hc : c = b
  · subst hc
    rw [State.buf_withBuf_same, Memory.read_write_ne _ v (h.resolve_left (absurd rfl))]
  · rw [State.buf_withBuf_ne _ _ hc]

/-- R47: the step that writes a byte inside a buffer. -/
theorem step_bufWrite {s : State} {b : Buf} {a : Nat} {v : Byte} {rest : List HostOp}
    (h : s.hostMoves (.bufWrite b a v) rest) (hb : s.status.busy = false) (ha : a < bufSize s.params b) :
    step s = .next { s.withBuf b ((s.buf b).write a v) with turns := s.turns.tail, prog := rest } := by
  have hx : hostPerform (.bufWrite b a v) s.popTurn = (s.popTurn.withBuf b ((s.buf b).write a v)).popOp := by
    rw [hostPerform_bufWrite (s := s.popTurn) hb ha, State.buf_popTurn]
  cases b <;> exact step_of_hostPerform_done h hx rfl

/-- Settles O10, by the order of the checks: the hazard, the range, and for a read the written mark. -/
theorem hostBufferAccess : Obligations.HostBufferAccess := by
  unfold Obligations.HostBufferAccess
  refine ⟨fun s b a rest h => ⟨fun hb => step_hazard h hb nofun nofun, fun hb ha => ?_, fun hb ha hv => ?_,
    fun v hb ha hv => ?_⟩, fun s b a v rest h => ⟨fun hb => step_hazard h hb nofun nofun, fun hb ha => ?_,
    fun hb ha => ⟨_, step_bufWrite h hb ha, ?_, fun c x hne => ?_, ?_⟩⟩⟩
  · exact step_of_hostPerform_fault h (hostPerform_outOfRange hb (.inl rfl) ha)
  · exact step_of_hostPerform_fault h (hostPerform_bufRead_unwritten hb ha (s.buf_popTurn b ▸ hv))
  · exact step_of_hostPerform_done h (hostPerform_bufRead_written hb ha (s.buf_popTurn b ▸ hv)) rfl
  · exact step_of_hostPerform_fault h (hostPerform_outOfRange hb (.inr ⟨v, rfl⟩) ha)
  · exact (congrArg (·.read a) (State.buf_withBuf_same s b _)).trans (Memory.read_write_same _ a v)
  · exact State.read_withBuf_write_ne s v hne
  · cases b <;> rfl

end Sys2Proof.Machine
end

section
/-!
PROOFS. With windows apart, a bus address leads back to its register or byte (O44).
-/

namespace Sys2Proof.Machine

/-- An index below a window's size stands in the window. -/
theorem inWindow_add {a n : Nat} (h : a < n) (base : Nat) : inWindow base n (base + a) :=
  ⟨Nat.le_add_right base a, Nat.add_lt_add_left h base⟩

/-- R42: an address in one window is not in a window apart from it. -/
theorem not_inWindow_of_apart {b₁ n₁ b₂ n₂ a : Nat} (hapart : windowsApart b₁ n₁ b₂ n₂) (h : a < n₂) :
    ¬ inWindow b₁ n₁ (b₂ + a) := by
  rintro ⟨hle, hlt⟩
  rcases hapart with hbelow | habove <;> omega

/-- Settles O44: `busTarget` asks the windows in order, and an address of one lies in none of those before it. -/
theorem busAddressLeadsBackToItsTarget : Obligations.BusAddressLeadsBackToItsTarget := by
  unfold Obligations.BusAddressLeadsBackToItsTarget
  intro p hp
  obtain ⟨-, hrc, hrm, hro, hcm, hco, hmo⟩ := hp
  refine ⟨fun o => ?_, fun a ha => ?_, fun a ha => ?_, fun a ha => ?_⟩ <;> unfold busTarget
  · rw [if_pos (inWindow_add o.isLt _), Nat.add_sub_cancel_left]
    simp
  · rw [if_neg (not_inWindow_of_apart hrc ha), if_pos (inWindow_add ha _), Nat.add_sub_cancel_left]
  · rw [if_neg (not_inWindow_of_apart hrm ha), if_neg (not_inWindow_of_apart hcm ha), if_pos (inWindow_add ha _),
      Nat.add_sub_cancel_left]
  · rw [if_neg (not_inWindow_of_apart hro ha), if_neg (not_inWindow_of_apart hco ha),
      if_neg (not_inWindow_of_apart hmo ha), if_pos (inWindow_add ha _), Nat.add_sub_cancel_left]

end Sys2Proof.Machine
end

section
/-!
PROOFS. What ENC and DEC leave unchanged (O26, O30).
-/

namespace Sys2Proof.Machine

/-- R82, R102: an EnhancedFlip unit and its perturbation are bits 0 to 3 alone. -/
theorem writeUnitE_flipFor_keep (v : Byte) (a b : Bool) : writeUnitE (flipFor v a b) a b &&& 0xF0 = v &&& 0xF0 := by
  have hF3 : (0xF0 : Byte) = 0xF3 &&& 0xF0 := by decide
  have hFC : (0xF0 : Byte) = 0xFC &&& 0xF0 := by decide
  calc writeUnitE (flipFor v a b) a b &&& 0xF0
      = (flipFor v a b &&& 0xF3) &&& 0xF0 := by rw [← writeUnitE_keep _ a b, BitVec.and_assoc, ← hF3]
    _ = (flipFor v a b &&& 0xFC) &&& 0xF0 := by rw [BitVec.and_assoc, ← hF3, BitVec.and_assoc, ← hFC]
    _ = v &&& 0xF0 := by rw [flipFor_keep, BitVec.and_assoc, ← hFC]

/-- R82, R102: what the embedding keeps of a carrier byte. -/
theorem embeddedByte_keep {sch : Scheme} {keep : Byte}
    (h : (sch, keep) ∈ ([(.basic, 0xFE), (.enhancedFlip, 0xF0), (.enhancedNoFlip, 0xF3)] : List (Scheme × Byte)))
    (msg : List Byte) (k : Nat) (v : Byte) : embeddedByte sch msg k v &&& keep = v &&& keep := by
  simp only [List.mem_cons, Prod.mk.injEq, List.not_mem_nil, or_false] at h
  rcases h with ⟨rfl, rfl⟩ | ⟨rfl, rfl⟩ | ⟨rfl, rfl⟩
  · exact writeUnitB_keep v _
  · exact writeUnitE_flipFor_keep v _ _
  · exact writeUnitE_keep v _ _

/-- Settles O26: an ENC that fails leaves the carrier, and one that succeeds rewrites the bytes of the frame. -/
theorem encodeFrame : Obligations.EncodeFrame := by
  unfold Obligations.EncodeFrame
  intro s t sch keep hkeep h
  rw [exec_encOf] at h
  rcases encodeSeq_cases sch s with
    ⟨-, hx⟩ | ⟨-, -, ⟨-, hx⟩ | ⟨-, ⟨-, hx⟩ | ⟨⟨⟨-, -, -, hw⟩, -⟩, m, hx, hin, hout, -⟩⟩⟩ <;>
    rw [hx] at h <;> obtain rfl := Host.Outcome.next.inj h
  · exact ⟨rfl, fun _ _ => rfl, fun _ => rfl⟩
  · exact ⟨rfl, fun _ _ => rfl, fun _ => rfl⟩
  · exact ⟨rfl, fun _ _ => rfl, fun _ => rfl⟩
  · refine ⟨rfl, hout, fun a => ?_⟩
    show (m.read a).map _ = _
    rcases Nat.lt_or_ge a ((32 + 8 * s.messageLen) / units sch) with ha | ha
    · have hold : s.cbuf.read a = some (s.cbuf.byteAt a) :=
        Memory.read_eq_byteAt (Nat.zero_add a ▸ hw a ha)
      rw [hin a ha, hold, Option.map_some, Option.map_some, embeddedByte_keep hkeep]
    · rw [hout a ha]

/-- R117: what a DEC can leave: a fault, an error before or after the header was written to HDR, or a message. -/
theorem exec_decOf_cases {s t : State} {sch : Scheme} (h : exec (decOf sch) s = .next t) :
    t = s.setFault .uninitRead ∨ (∃ e, t = s.complete e) ∨
    (∃ e, t = (s.withHdr (streamHeader sch s.cbuf)).complete e) ∨
    ∃ out : List Byte, out.length = streamHeader sch s.cbuf / 8 ∧
      t = ((s.withHdr (streamHeader sch s.cbuf)).deliver (streamHeader sch s.cbuf) out).complete .ok := by
  rw [exec_decOf] at h
  rcases decodeSeq_cases sch s with
    ⟨-, hx⟩ | ⟨-, ⟨-, hx⟩ | ⟨-, -, hx⟩ | ⟨-, ⟨-, hx⟩ | ⟨-, -, hx⟩ |
      ⟨-, ⟨-, hx⟩ | ⟨-, -, hx⟩ | ⟨-, -, out, hx, hlen, -⟩⟩⟩⟩ <;>
    rw [hx] at h <;> obtain rfl := Host.Outcome.next.inj h
  · exact .inr (.inl ⟨_, rfl⟩)
  · exact .inr (.inl ⟨_, rfl⟩)
  · exact .inl rfl
  · exact .inr (.inr (.inl ⟨_, rfl⟩))
  · exact .inl rfl
  · exact .inr (.inr (.inl ⟨_, rfl⟩))
  · exact .inr (.inr (.inl ⟨_, rfl⟩))
  · exact .inr (.inr (.inr ⟨out, hlen, rfl⟩))

/-- Settles O30: only a DEC that succeeds writes OBUF, and it writes as many bytes as its header counts. -/
theorem decodeFrame : Obligations.DecodeFrame := by
  unfold Obligations.DecodeFrame
  intro s t sch h
  rcases exec_decOf_cases h with rfl | ⟨e, rfl⟩ | ⟨e, rfl⟩ | ⟨out, hlen, rfl⟩
  · exact ⟨rfl, fun _ _ => rfl, fun _ => ⟨rfl, rfl⟩⟩
  · exact ⟨rfl, fun _ _ => rfl, fun _ => ⟨rfl, rfl⟩⟩
  · exact ⟨rfl, fun _ _ => rfl, fun _ => ⟨rfl, rfl⟩⟩
  · have hok : ¬ ((Status.completed .ok).err ≠ 0 ∨ s.fault ≠ s.fault) := by simp
    refine ⟨rfl, fun a ha => ?_, fun hfail => absurd hfail hok⟩
    show (s.obuf.writeBytes 0 out).read a = s.obuf.read a
    rw [Memory.read_writeBytes, if_neg (by omega)]

end Sys2Proof.Machine
end

section
/-!
PROOFS. The decoder by the fields of a word, and its inverse the encoder (O1, O2, O3).
-/

namespace Sys2Proof

/-- R63: the bits of the word with given fields. -/
theorem Cmd32.getLsbD_word (c : Cmd32) (k : Nat) : c.word.getLsbD k =
    if k < 4 then c.op.getLsbD k else if k - 4 < 2 then c.sch.getLsbD (k - 4) else c.rsv.getLsbD (k - 4 - 2) := by
  unfold Cmd32.word
  rw [BitVec.getLsbD_append, BitVec.getLsbD_append]

/-- R63: a word built from fields has those fields. -/
theorem fieldsOf_word (c : Cmd32) : fieldsOf c.word = c := by
  obtain ⟨op, sch, rsv⟩ := c
  simp only [fieldsOf, Cmd32.mk.injEq]
  refine ⟨?_, ?_, ?_⟩ <;> ext k hk <;> simp only [BitVec.getElem_extractLsb', Cmd32.getLsbD_word]
  · simp [hk]
  · simp [hk]
  · have hsub : 6 + k - 4 - 2 = k := by omega
    rw [if_neg (by omega), if_neg (by omega), hsub, BitVec.getLsbD_eq_getElem hk]

/-- R63: a word is the one built from some fields exactly when it has them. -/
theorem fieldsOf_eq_iff {w : Word} {c : Cmd32} : fieldsOf w = c ↔ w = c.word :=
  ⟨fun h => h ▸ (word_fieldsOf w).symm, fun h => h ▸ fieldsOf_word c⟩

/-- R65: the SCH field that selects a scheme. -/
def Scheme.field (x : Scheme) : BitVec 2 :=
  match x with
  | .basic => 0
  | .enhancedFlip => 1
  | .enhancedNoFlip => 2

/-- R65: each scheme is selected by its own SCH field only. -/
theorem schemeOf_eq_some_iff {sch : BitVec 2} {x : Scheme} : schemeOf sch = some x ↔ sch = x.field := by
  cases x <;> revert sch <;> decide

/-- R68: a nonzero RSV is rejected before anything else. -/
theorem decodeFields_reservedBits {c : Cmd32} (hr : c.rsv ≠ 0) : decodeFields c = .error .reservedBits :=
  if_pos hr

/-- R65: OP = 0 with SCH = 0 is NOP. -/
theorem decodeFields_nop {c : Cmd32} (hr : c.rsv = 0) (ho : c.op = 0) (hs : c.sch = 0) :
    decodeFields c = .ok .nop := by
  simp [decodeFields, hr, ho, hs]

/-- R65: OP = 0 with any other SCH is reserved. -/
theorem decodeFields_nopWithScheme {c : Cmd32} (hr : c.rsv = 0) (ho : c.op = 0) (hs : c.sch ≠ 0) :
    decodeFields c = .error .nopWithScheme := by
  unfold decodeFields
  rw [if_neg (not_not_intro hr), if_pos ho, if_neg hs]

/-- R64: OP = 4 to 15 is reserved whatever SCH is. -/
theorem decodeFields_reservedOp {c : Cmd32} (hr : c.rsv = 0) (ho : 3 < c.op.toNat) :
    decodeFields c = .error .reservedOp := by
  have hne : c.op ≠ 0 := fun h => by simp [h] at ho
  unfold decodeFields
  rw [if_neg (not_not_intro hr), if_neg hne]
  split
  · omega
  · omega
  · omega
  · rfl

/-- R64, R67: OP selects a family of commands, one for each scheme. -/
def OpSelects (op : BitVec 4) (cmd : Scheme → Instr) : Prop :=
  op = 1 ∧ cmd = encOf ∨ op = 2 ∧ cmd = decOf ∨ op = 3 ∧ cmd = capOf

/-- R64: every OP but NOP's and the reserved ones selects a family. -/
theorem exists_opSelects {op : BitVec 4} (h₀ : op ≠ 0) (h₃ : op.toNat ≤ 3) : ∃ cmd, OpSelects op cmd := by
  have hop : op = 1 ∨ op = 2 ∨ op = 3 := by bv_omega
  rcases hop with h | h | h
  · exact ⟨encOf, .inl ⟨h, rfl⟩⟩
  · exact ⟨decOf, .inr (.inl ⟨h, rfl⟩)⟩
  · exact ⟨capOf, .inr (.inr ⟨h, rfl⟩)⟩

/-- R67: the fields of a command of a family. -/
theorem OpSelects.fields_eq {op : BitVec 4} {cmd : Scheme → Instr} (h : OpSelects op cmd) (x : Scheme) :
    (cmd x).fields = ⟨op, x.field, 0⟩ := by
  rcases h with ⟨rfl, rfl⟩ | ⟨rfl, rfl⟩ | ⟨rfl, rfl⟩ <;> cases x <;> rfl

/-- R68: in a family, SCH selects the command or is reserved. -/
theorem OpSelects.decodeFields_eq {c : Cmd32} {cmd : Scheme → Instr} (h : OpSelects c.op cmd) (hr : c.rsv = 0) :
    decodeFields c = (schemeOf c.sch).elim (.error .reservedScheme) (.ok ∘ cmd) := by
  cases hs : schemeOf c.sch with
  | none => rcases h with ⟨ho, rfl⟩ | ⟨ho, rfl⟩ | ⟨ho, rfl⟩ <;> simp [decodeFields, hr, ho, hs]
  | some x => rcases h with ⟨ho, rfl⟩ | ⟨ho, rfl⟩ | ⟨ho, rfl⟩ <;> simp [decodeFields, hr, ho, hs]

/-- R68: the fields that decode to a command are the command's fields. -/
theorem decodeFields_eq_ok {c : Cmd32} {i : Instr} (h : decodeFields c = .ok i) : c = i.fields := by
  obtain hr | hr := ne_or_eq c.rsv 0
  · simp [decodeFields_reservedBits hr] at h
  obtain ho | ho := eq_or_ne c.op 0
  · obtain hs | hs := eq_or_ne c.sch 0
    · obtain rfl : Instr.nop = i := by simpa [decodeFields_nop hr ho hs] using h
      calc c = ⟨c.op, c.sch, c.rsv⟩ := rfl
        _ = Instr.nop.fields := by rw [ho, hs, hr]; rfl
    · simp [decodeFields_nopWithScheme hr ho hs] at h
  obtain h₃ | h₃ := Nat.lt_or_ge 3 c.op.toNat
  · simp [decodeFields_reservedOp hr h₃] at h
  obtain ⟨cmd, hcmd⟩ := exists_opSelects ho h₃
  rw [hcmd.decodeFields_eq hr] at h
  cases hs : schemeOf c.sch with
  | none => simp [hs] at h
  | some x =>
    obtain rfl : cmd x = i := by simpa [hs] using h
    rw [hcmd.fields_eq, ← schemeOf_eq_some_iff.mp hs, ← hr]

/-- R68: a command's fields decode to it. -/
theorem decodeFields_fields (i : Instr) : decodeFields i.fields = .ok i := by
  cases i <;> rfl

/-- Settles O2: the fields of a word decode to a command when they are the command's, and a word is its fields. -/
theorem decodeGivesInstrIffWordIsItsEncoding : Obligations.DecodeGivesInstrIffWordIsItsEncoding := by
  unfold Obligations.DecodeGivesInstrIffWordIsItsEncoding
  intro w i
  calc decode w = .ok i
      ↔ fieldsOf w = i.fields := ⟨decodeFields_eq_ok, fun h => by rw [decode, h, decodeFields_fields]⟩
    _ ↔ w = encode i := fieldsOf_eq_iff

/-- R65: SCH selects the schemes in their order. -/
theorem schemeOf_eq_getElem? (sch : BitVec 2) :
    schemeOf sch = [Scheme.basic, .enhancedFlip, .enhancedNoFlip][sch.toNat]? := by
  revert sch
  decide

/-- Settles O3: each clause is a lemma on the fields, and `toNat_fieldsOf` gives their values. -/
theorem decodeByFieldValues : Obligations.DecodeByFieldValues := by
  unfold Obligations.DecodeByFieldValues
  intro w op sch rsv hop hsch hrsv
  obtain ⟨ho, hs, hr⟩ := toNat_fieldsOf w
  obtain rfl := hop.trans ho.symm
  obtain rfl := hsch.trans hs.symm
  obtain rfl := hrsv.trans hr.symm
  have hzero {n : Nat} {x : BitVec n} : x.toNat = 0 ↔ x = 0 := BitVec.toNat_inj (y := 0)
  simp only [ne_eq, hzero]
  refine ⟨decodeFields_reservedBits, decodeFields_nop, decodeFields_nopWithScheme, decodeFields_reservedOp,
    fun hr h₀ h₃ hs => ?_, fun x hr _ hx => ?_⟩
  · obtain ⟨cmd, hcmd⟩ := exists_opSelects h₀ h₃
    have hsch : (fieldsOf w).sch = 3 := BitVec.toNat_inj.mp hs
    rw [decode, hcmd.decodeFields_eq hr, hsch]
    rfl
  · have hcmd {cmd : Scheme → Instr} (h : OpSelects (fieldsOf w).op cmd) : decode w = .ok (cmd x) := by
      rw [decode, h.decodeFields_eq hr, schemeOf_eq_getElem?, hx]
      rfl
    exact ⟨fun h => hcmd (.inl ⟨BitVec.toNat_inj.mp h, rfl⟩),
      fun h => hcmd (.inr (.inl ⟨BitVec.toNat_inj.mp h, rfl⟩)),
      fun h => hcmd (.inr (.inr ⟨BitVec.toNat_inj.mp h, rfl⟩))⟩

/-- Settles O1: the words are the encodings of the commands, so O2 decodes them; `fieldsOf_word` gives their fields. -/
theorem tableWordsDecode : Obligations.TableWordsDecode := by
  unfold Obligations.TableWordsDecode
  intro row hrow
  have htable : encode row.2.2.2.2 = row.1 ∧ row.2.2.2.2.fields = ⟨row.2.1, row.2.2.1, 0⟩ ∧
      row.2.2.2.2.mnemonic = row.2.2.2.1 := by
    revert row
    decide
  obtain ⟨hword, hfields, hname⟩ := htable
  refine ⟨(decodeGivesInstrIffWordIsItsEncoding _ _).mpr hword.symm, hword, ?_, hname⟩
  rw [← hword, ← hfields, encode, fieldsOf_word]

end Sys2Proof
end

section
/-!
PROOFS. The text of a command and the operations it stands for (O4).
-/

namespace Sys2Proof.Machine

/-- R70: a word of a line: characters that neither end it nor begin a comment. -/
def IsLineWord (cs : List Char) : Prop :=
  cs ≠ [] ∧ ∀ c ∈ cs, ¬ isBlank c ∧ c ≠ ';' ∧ c ≠ ','

/-- R70: without the mark of a comment nothing is dropped. -/
theorem dropComment_of_notMem {cs : List Char} (h : ';' ∉ cs) : dropComment cs = cs := by
  unfold dropComment
  induction cs with
  | nil => rfl
  | cons c rest ih =>
    obtain ⟨hc, hrest⟩ := not_or.mp (mt List.mem_cons.mpr h)
    simp [cutAt, Ne.symm hc, ih hrest]

/-- R70: without a comma there is one operand. -/
theorem commaParts_of_notMem {cs : List Char} (h : ',' ∉ cs) : commaParts cs = [cs] := by
  induction cs with
  | nil => rfl
  | cons c rest ih =>
    obtain ⟨hc, hrest⟩ := not_or.mp (mt List.mem_cons.mpr h)
    simp [commaParts, Ne.symm hc, ih hrest]

/-- A word is not trimmed at its front, whatever stands after it. -/
theorem IsLineWord.dropBlanks_append {cs : List Char} (h : IsLineWord cs) (rest : List Char) :
    dropBlanks (cs ++ rest) = cs ++ rest := by
  obtain ⟨hne, hall⟩ := h
  obtain ⟨c, cs, rfl⟩ := List.exists_cons_of_ne_nil hne
  obtain ⟨hc, -, -⟩ := hall c List.mem_cons_self
  exact List.dropWhile_cons_of_neg (by simpa using hc)

/-- A word is not trimmed at its front. -/
theorem IsLineWord.dropBlanks_eq {cs : List Char} (h : IsLineWord cs) : dropBlanks cs = cs := by
  simpa using h.dropBlanks_append []

/-- A word read backwards is a word. -/
theorem IsLineWord.reverse {cs : List Char} (h : IsLineWord cs) : IsLineWord cs.reverse := by
  simpa [IsLineWord] using h

/-- A line that begins and ends with a word is not trimmed. -/
theorem IsLineWord.trim_append {first last : List Char} (hf : IsLineWord first) (hl : IsLineWord last)
    (between : List Char) : trim (first ++ (between ++ last)) = first ++ (between ++ last) := by
  rw [trim, hf.dropBlanks_append, List.reverse_append, List.reverse_append, List.append_assoc,
    hl.reverse.dropBlanks_append]
  simp

/-- A blank before a word is trimmed. -/
theorem IsLineWord.trim_blank {cs : List Char} (h : IsLineWord cs) : trim (' ' :: cs) = cs := by
  have hfront : dropBlanks (' ' :: cs) = cs := h.dropBlanks_eq
  rw [trim, hfront, h.reverse.dropBlanks_eq, List.reverse_reverse]

/-- R70: a line of an operation's name and one operand is that operation. -/
theorem assembleLine_oneOperand {op arg : List Char} (ho : IsLineWord op) (ha : IsLineWord arg) :
    assembleLine (op ++ ' ' :: arg) = assembleOp op [arg] := by
  obtain ⟨-, hop⟩ := id ho
  obtain ⟨-, harg⟩ := id ha
  have hcomment : ';' ∉ op ++ ' ' :: arg := by
    simpa using ⟨fun h => (hop _ h).2.1 rfl, fun h => (harg _ h).2.1 rfl⟩
  have hcomma : ',' ∉ ' ' :: arg := by
    simpa using fun h => (harg _ h).2.2 rfl
  have hline : trim (dropComment (op ++ ' ' :: arg)) = op ++ ' ' :: arg := by
    rw [dropComment_of_notMem hcomment]
    exact ho.trim_append ha [' ']
  have hkeep : ∀ c ∈ op, decide (¬ isBlank c) = true := fun c hc => decide_eq_true (hop c hc).1
  have hname : (op ++ ' ' :: arg).takeWhile (fun c => ¬ isBlank c) = op :=
    (List.takeWhile_append_of_pos hkeep).trans (List.append_nil op)
  have hrest : (op ++ ' ' :: arg).dropWhile (fun c => ¬ isBlank c) = ' ' :: arg :=
    List.dropWhile_append_of_pos hkeep
  simp only [assembleLine, hline, hname, hrest]
  rw [if_neg (by simp), commaParts_of_notMem hcomma, List.map_singleton, ha.trim_blank]

/-- R70: a mnemonic is one word. -/
theorem isLineWord_mnemonic (i : Instr) : IsLineWord i.mnemonic.toList := by
  unfold IsLineWord
  cases i <;> simp [Instr.mnemonic]

/-- R70: no two commands share a mnemonic. -/
theorem parseMnemonic_mnemonic (i : Instr) : parseMnemonic i.mnemonic.toList = some i := by
  cases i <;> decide

/-- Settles O4: the line is the name `cmd` and one operand, the mnemonic. -/
theorem mnemonicAssemblesToItsWord : Obligations.MnemonicAssemblesToItsWord := by
  unfold Obligations.MnemonicAssemblesToItsWord
  intro i
  have hcmd : IsLineWord "cmd".toList := by
    simp [IsLineWord]
  refine ⟨parseMnemonic_mnemonic i, ?_⟩
  calc assembleLine ("cmd ".toList ++ i.mnemonic.toList)
      = assembleOp "cmd".toList [i.mnemonic.toList] := assembleLine_oneOperand hcmd (isLineWord_mnemonic i)
    _ = (parseMnemonic i.mnemonic.toList).map cmdOp := rfl
    _ = some [.regWrite 0x00 .w32 (encode i)] := by rw [parseMnemonic_mnemonic]; rfl

end Sys2Proof.Machine
end

section
/-!
PROOFS. The polls of a `wait` (O12).
-/

namespace Sys2Proof.Machine

/-- R71: a poll that reads BUSY = 1 is repeated. -/
theorem hostPerform_wait_busy {s : State} (hb : s.status.busy = true) :
    hostPerform .wait s = s.reply (.word s.status.word) := by
  simp only [hostPerform, hostRegRead_status, Status.word_bit_zero, if_pos hb]

/-- R71: a poll that reads BUSY = 0 ends the `wait`. -/
theorem hostPerform_wait_idle {s : State} (hb : s.status.busy = false) :
    hostPerform .wait s = (s.reply (.word s.status.word)).popOp := by
  simp [hostPerform, hostRegRead_status, hb]

/-- Settles O12, by BUSY as the poll reads it. -/
theorem waitReadsStatusUntilIdle : Obligations.WaitReadsStatusUntilIdle := by
  unfold Obligations.WaitReadsStatusUntilIdle
  refine fun s rest h => ⟨fun hb => ?_, fun hb => ?_⟩
  · rw [step_of_hostMoves h, hostPerform_wait_busy (s := s.popTurn) hb]
    rfl
  · exact step_of_hostPerform_done h (hostPerform_wait_idle (s := s.popTurn) hb) rfl

end Sys2Proof.Machine
end

section
/-!
PROOFS. The framer on its own: the bits of a frame, the bytes that Parse delivers, and that each undoes the other
(O36, O37, O38).
-/

namespace Sys2Proof.Machine

/-- R72: bit `i` of the header is bit `31 - i` of the 32-bit length word. -/
theorem getElem?_frame_header (msg : List Byte) {i : Nat} (hi : i < 32) :
    (frame msg)[i]? = some ((BitVec.ofNat 32 (8 * msg.length)).getLsbD (31 - i)) := by
  rw [frame, List.getElem?_append_left (by simpa using hi), headerOf, getElem?_bitsMsbFirst _ hi]

/-- R72: bit `j` of message byte `k` is bit `7 - j` of its value, at place `32 + 8·k + j`. -/
theorem getElem?_frame_byte {msg : List Byte} {k j : Nat} (hk : k < msg.length) (hj : j < 8) :
    (frame msg)[32 + 8 * k + j]? = msg[k]?.map fun v => v.getLsbD (7 - j) := by
  have hdiv : (32 + 8 * k + j - 32) / 8 = k := by omega
  have hmod : (32 + 8 * k + j - 32) % 8 = j := by omega
  rw [getElem?_frame _ (by omega), if_neg (by omega), hdiv, hmod]
  simp [hk]

/-- Settles O36: the length, the header's bits and the payload's bits of a frame. -/
theorem frameBits : Obligations.FrameBits := by
  unfold Obligations.FrameBits
  exact fun msg _ =>
    ⟨length_frame msg, fun _ hi => getElem?_frame_header msg hi, fun _ hk _ hj => getElem?_frame_byte hk hj⟩

/-- R77: a whole group of 8 bits delivers the byte that is the sum of its weighted bits. -/
theorem getElem?_groupBytes_sum {p : BitString} {n k : Nat} (hk : k < n) (hn : 8 * n ≤ p.length) :
    (groupBytes p n)[k]? = some (BitVec.ofNat 8
      ((List.range 8).map fun j => 2 ^ (7 - j) * (p.getD (8 * k + j) false).toNat).sum) := by
  have hlen : ((p.drop (8 * k)).take 8).length = 8 := by
    rw [List.length_take, List.length_drop]
    omega
  have hbit : ∀ j < 8, ((p.drop (8 * k)).take 8).getD j false = p.getD (8 * k + j) false := fun j hj => by
    simp [List.getD_eq_getElem?_getD, hj]
  rw [getElem?_groupBytes p hk, bitsValue_of_getD hlen hbit]

/-- R76: Parse of at least `hdr` bits, `hdr` a multiple of 8, delivers the groups. -/
theorem parse_of_aligned {hdr : Nat} {p : BitString} (hlen : hdr ≤ p.length) (halign : hdr % 8 = 0) :
    parse hdr p = .ok (groupBytes p (hdr / 8)) := by
  rw [parse_eq, if_neg (by omega), if_neg (not_not_intro halign)]

/-- Settles O37, by the three branches of Parse in their order. -/
theorem parseChecksAndBytes : Obligations.ParseChecksAndBytes := by
  unfold Obligations.ParseChecksAndBytes
  refine fun hdr p => ⟨fun hshort => ?_, fun hlen halign => ?_, fun hlen halign => ?_⟩
  · rw [parse_eq, if_pos hshort]
  · rw [parse_eq, if_neg (by omega), if_pos halign]
  · exact ⟨groupBytes p (hdr / 8), parse_of_aligned hlen halign, length_groupBytes _ _,
      fun k hk => getElem?_groupBytes_sum hk (by omega)⟩

/-- R72: a frame's first 32 bits are its header. -/
theorem take_frame (msg : List Byte) : (frame msg).take 32 = headerOf msg.length :=
  List.take_left' (length_headerOf _)

/-- R72: a frame's bits after its header are its payload. -/
theorem drop_frame (msg : List Byte) : (frame msg).drop 32 = payloadOf msg :=
  List.drop_left' (length_headerOf _)

/-- R79: Parse of a message's payload is the message. -/
theorem parse_payloadOf (msg : List Byte) : parse (8 * msg.length) (payloadOf msg) = .ok msg := by
  rw [parse_of_aligned (by simp) (Nat.mul_mod_right 8 _), Nat.mul_div_cancel_left _ (by decide), groupBytes_payloadOf]

/-- Settles O38: the header is read back from the front of the frame, the message from the rest. -/
theorem framerRoundTrip : Obligations.FramerRoundTrip := by
  unfold Obligations.FramerRoundTrip
  refine fun msg hl => ⟨?_, ?_⟩
  · rw [take_frame, headerValue_headerOf hl]
  · rw [drop_frame, parse_payloadOf]

end Sys2Proof.Machine
end

section
/-!
PROOFS. The capacity queries: what a CAP does for a carrier that fits CBUF and for one that does not (O19).
-/

namespace Sys2Proof.Machine

/-- R7, R83: the capacity of a carrier that fits CBUF is a 32-bit value, so writing it to CAP loses nothing. -/
theorem capacity_lt {p : Params} (hp : p.sizesOk) {n : Nat} (hn : n ≤ p.nMax) (sch : Scheme) :
    n * units sch < 2 ^ 32 := by
  obtain ⟨-, hmax, -⟩ := hp
  cases sch <;> simp only [units] <;> omega

/-- R113: CAP with N > N_MAX ends with RANGE and writes nothing but STATUS. -/
theorem exec_capOf_tooLong {s : State} (h : s.carrierTooLong) (sch : Scheme) :
    exec (capOf sch) s = .next (s.complete .range) := by
  obtain ⟨-, hx⟩ := (capSeq_cases sch s).resolve_right fun hfits => hfits.1 h
  rw [exec_capOf, hx, Result.finish_ends]

/-- R85, R86, R87: CAP with a carrier that fits CBUF writes exactly N·UNITS to CAP, completes with OK and writes nothing else. -/
theorem exec_capOf_fits {s : State} (hp : s.params.sizesOk) (hn : s.carrierLen ≤ s.params.nMax) (sch : Scheme) :
    ∃ t, exec (capOf sch) s = .next t ∧ t = { s with status := ⟨false, true, 0⟩, cap := t.cap } ∧
      t.cap.toNat = s.clen.toNat * units sch := by
  obtain ⟨-, hx⟩ := (capSeq_cases sch s).resolve_left fun hlong => hlong.1.not_ge hn
  rw [exec_capOf, hx, Result.finish_ends]
  exact ⟨_, rfl, rfl, (BitVec.toNat_ofNat _ _).trans (Nat.mod_eq_of_lt (capacity_lt hp hn sch))⟩

/-- Settles O19: each query is the CAP of its scheme, with UNITS 1 for CAP.B and 2 for CAP.EF and CAP.EN. -/
theorem capacityQueries : Obligations.CapacityQueries := by
  unfold Obligations.CapacityQueries
  refine ⟨by decide, by decide, by decide, fun s => ⟨fun hp hn => ?_, fun hlong => ?_⟩⟩
  · obtain ⟨t, ht, htframe, htcap⟩ := exec_capOf_fits hp hn .basic
    obtain ⟨u, hu, huframe, hucap⟩ := exec_capOf_fits hp hn .enhancedFlip
    obtain ⟨v, hv, hvframe, hvcap⟩ := exec_capOf_fits hp hn .enhancedNoFlip
    exact ⟨t, u, v, ht, htframe, htcap.trans (Nat.mul_one _), hu, huframe, hucap.trans (Nat.mul_comm _ 2),
      hv, hvframe, hvcap.trans (Nat.mul_comm _ 2)⟩
  · exact ⟨exec_capOf_tooLong hlong .basic, exec_capOf_tooLong hlong .enhancedFlip,
      exec_capOf_tooLong hlong .enhancedNoFlip⟩

end Sys2Proof.Machine
end

section
/-!
PROOFS. What an ENC and a DEC that succeed leave, for every scheme, and the Basic commands (O22, O27, O39).
-/

namespace Sys2Proof.Machine

/-- R116: an ENC that is ready completes with OK; the bytes of the frame are the embedded ones, every other is as it was. -/
theorem exec_encOf_ready {s : State} {sch : Scheme} (h : s.encReady sch) :
    ∃ t, exec (encOf sch) s = .next t ∧ t = { s with status := ⟨false, true, 0⟩, cbuf := t.cbuf } ∧
      (∀ k < (32 + 8 * s.messageLen) / units sch,
        t.cbuf.read k = some (embeddedByte sch s.message k (s.cbuf.byteAt k))) ∧
      ∀ k, (32 + 8 * s.messageLen) / units sch ≤ k → t.cbuf.read k = s.cbuf.read k := by
  obtain ⟨⟨hn, hm, hmsg, hcar⟩, hfit⟩ := h
  rcases encodeSeq_cases sch s with ⟨hlong, -⟩ | ⟨-, -, ⟨hshort, -⟩ | ⟨-, ⟨hunwritten, -⟩ | ⟨-, m, hx, hin, hout, -⟩⟩⟩
  · omega
  · omega
  · exact hunwritten.elim (absurd hmsg) (absurd hcar)
  · rw [exec_encOf, hx, Result.finish_ends]
    exact ⟨_, rfl, rfl, hin, hout⟩

/-- R90, R98: the payload of a byte-aligned header is read whole. -/
theorem header_le_payloadBits {hdr : Nat} (halign : hdr % 8 = 0) (sch : Scheme) :
    hdr ≤ payloadBytes sch hdr * units sch := by
  cases sch <;> simp only [payloadBytes, units] <;> omega

/-- R117: a DEC that reads a byte-aligned header and its payload completes with OK; HDR holds the header, RLEN the length of
the message, and OBUF the message from index 0 on. -/
theorem exec_decOf_ready {s : State} {sch : Scheme} (h : s.payloadReady sch) (halign : streamHeader sch s.cbuf % 8 = 0) :
    ∃ t, exec (decOf sch) s = .next t ∧
      t = { s with status := ⟨false, true, 0⟩, hdr := t.hdr, rlen := t.rlen, obuf := t.obuf } ∧
      t.hdr.toNat = streamHeader sch s.cbuf ∧ t.rlen.toNat = streamHeader sch s.cbuf / 8 ∧
      (∀ k < streamHeader sch s.cbuf / 8, t.obuf.read k = some (streamByte sch s.cbuf k)) ∧
      ∀ k, streamHeader sch s.cbuf / 8 ≤ k → t.obuf.read k = s.obuf.read k := by
  have hwhole := header_le_payloadBits halign sch
  have hlt := streamHeader_lt sch s.cbuf
  obtain ⟨⟨hn, hfit, hhead⟩, hlimit, hpay⟩ := h
  rcases decodeSeq_cases sch s with
    ⟨hlong, -⟩ | ⟨-, ⟨hshort, -⟩ | ⟨-, hnh, -⟩ | ⟨-, ⟨hbeyond, -⟩ | ⟨-, hnp, -⟩ |
      ⟨-, ⟨htrunc, -⟩ | ⟨-, hodd, -⟩ | ⟨-, -, out, hx, hlen, hbytes⟩⟩⟩⟩
  · omega
  · omega
  · exact absurd hhead hnh
  · omega
  · exact absurd hpay hnp
  · omega
  · exact absurd halign hodd
  · rw [exec_decOf, hx, Result.finish_ends]
    refine ⟨_, rfl, rfl, ?_, ?_, fun k hk => ?_, fun k hk => ?_⟩
    · exact (BitVec.toNat_ofNat _ _).trans (Nat.mod_eq_of_lt hlt)
    · exact (BitVec.toNat_ofNat _ _).trans (Nat.mod_eq_of_lt (by omega))
    · show (s.obuf.writeBytes 0 out).read k = _
      rw [Memory.read_writeBytes, if_pos (by omega), Nat.sub_zero, hbytes k (by omega)]
    · show (s.obuf.writeBytes 0 out).read k = _
      rw [Memory.read_writeBytes, if_neg (by omega)]

/-- R82, R88: a Basic unit written to a byte clears bit 0 and sets it for a bit 1. -/
theorem writeUnitB_eq (v : Byte) (a : Bool) : writeUnitB v a = (v &&& 0xFE) ||| if a then 1 else 0 := by
  cases a <;> rfl

/-- Settles O22: what every ENC leaves, with one stream bit a carrier byte. -/
theorem encBWritesTheFrame : Obligations.EncBWritesTheFrame := by
  unfold Obligations.EncBWritesTheFrame
  intro s h
  obtain ⟨t, ht, hframe, hin, hout⟩ := exec_encOf_ready h
  rw [units, Nat.div_one] at hin hout
  refine ⟨t, ht, hframe, fun i hi => ?_, hout⟩
  rw [hin i hi, embeddedByte, writeUnitB_eq]

/-- Settles O27: what every DEC of a byte-aligned header leaves. -/
theorem decBDeliversTheMessage : Obligations.DecBDeliversTheMessage := by
  unfold Obligations.DecBDeliversTheMessage
  rintro s _ rfl h halign
  exact exec_decOf_ready h halign

/-- R8: a message that fits MBUF counts at most 2^29 − 1 bytes, so its length in bits fits the header. -/
theorem messageLen_le_of_sizesOk {s : State} (hp : s.params.sizesOk) (hm : s.messageLen ≤ s.params.mMax) :
    s.messageLen ≤ 2 ^ 29 - 1 := by
  obtain ⟨-, -, -, hmax, -⟩ := hp
  exact hm.trans hmax

/-- R75, R92: the carrier that a successful ENC leaves holds the header 8·L, for every scheme. -/
theorem streamHeader_of_exec_encOf {s t : State} {sch : Scheme} (hp : s.params.sizesOk) (h : s.encReady sch)
    (ht : exec (encOf sch) s = .next t) : streamHeader sch t.cbuf = 8 * s.messageLen := by
  obtain ⟨u, hu, -, hin, -⟩ := exec_encOf_ready h
  obtain rfl : u = t := Host.Outcome.next.inj (hu.symm.trans ht)
  obtain ⟨⟨-, hm, -⟩, -⟩ := h
  rw [← State.length_message] at hin ⊢
  exact streamHeader_of_embedded ((State.length_message s).trans_le (messageLen_le_of_sizesOk hp hm)) hin

/-- Settles O39: the header that every ENC leaves, read as the Basic stream. -/
theorem encBHeaderReadsBack : Obligations.EncBHeaderReadsBack := by
  unfold Obligations.EncBHeaderReadsBack
  intro s t hp h ht
  exact streamHeader_of_exec_encOf hp h ht

end Sys2Proof.Machine
end

section
/-!
PROOFS. What ENC.EN and the two enhanced DECs leave when they succeed (O23, O28).
-/

namespace Sys2Proof.Machine

/-- R82, R95: an enhanced unit written to a byte clears bits 2 and 3 and sets them to the target pattern. -/
theorem writeUnitE_eq (v : Byte) (a b : Bool) : writeUnitE v a b = (v &&& 0xF3) ||| targetPattern a b := by
  rw [writeUnitE, pairPattern_eq, clearE]

/-- Settles O23: what every ENC leaves, with two stream bits a carrier byte. -/
theorem encEnWritesTheFrame : Obligations.EncEnWritesTheFrame := by
  unfold Obligations.EncEnWritesTheFrame
  intro s h
  obtain ⟨t, ht, hframe, hin, hout⟩ := exec_encOf_ready h
  rw [units] at hin hout
  refine ⟨t, ht, hframe, fun k hk => ?_, hout⟩
  rw [hin k hk, embeddedByte, writeUnitE_eq]

/-- R105: the extractor of the enhanced schemes is one, so DEC.EF does what DEC.EN does. -/
theorem exec_decEf_eq_exec_decEn (s : State) : exec .decEf s = exec .decEn s := rfl

/-- Settles O28: what every DEC of a byte-aligned header leaves, under either enhanced command. -/
theorem decEnhancedDeliversTheMessage : Obligations.DecEnhancedDeliversTheMessage := by
  unfold Obligations.DecEnhancedDeliversTheMessage
  rintro s _ rfl h halign
  obtain ⟨t, ht, heffect⟩ := exec_decOf_ready h halign
  exact ⟨t, ht, (exec_decEf_eq_exec_decEn s).trans ht, heffect⟩

end Sys2Proof.Machine
end

section
/-!
PROOFS. What ENC.EF leaves when it succeeds (O24), and how its bytes compare with those of ENC.EN (O25).
-/

namespace Sys2Proof.Machine

/-- R102: the perturbation compares bits 2 and 3 with the target pattern and flips bits 0 and 1. -/
theorem flipFor_eq (v : Byte) (a b : Bool) :
    flipFor v a b = if v &&& 0x0C ≠ targetPattern a b then v ^^^ 0x03 else v := by
  rw [flipFor, pairPattern_eq, maskE, flipMask]

/-- Settles O24: what every ENC leaves, with two stream bits a carrier byte, written after the perturbation. -/
theorem encEfWritesTheFrame : Obligations.EncEfWritesTheFrame := by
  unfold Obligations.EncEfWritesTheFrame
  intro s h
  obtain ⟨t, ht, hframe, hin, hout⟩ := exec_encOf_ready h
  rw [units] at hin hout
  refine ⟨t, ht, hframe, ?_, hout⟩
  rintro k hk _ _ rfl rfl
  rw [hin k hk, embeddedByte, writeUnitE_eq, flipFor_eq]

/-- R82: an enhanced unit just written leaves the target pattern in bits 2 and 3. -/
theorem writeUnitE_unit (v : Byte) (a b : Bool) : writeUnitE v a b &&& 0x0C = targetPattern a b := by
  have hcleared : (0xF3 : Byte) &&& 0x0C = 0#8 := by decide
  have hpattern : targetPattern a b &&& 0x0C = targetPattern a b := by cases a <;> cases b <;> rfl
  rw [writeUnitE_eq, BitVec.and_or_distrib_right, BitVec.and_assoc, hcleared, hpattern, BitVec.and_zero, BitVec.zero_or]

/-- R82: bits 0 and 1 are none of an enhanced unit. -/
theorem writeUnitE_low (v : Byte) (a b : Bool) : writeUnitE v a b &&& 0x03 = v &&& 0x03 := by
  have hkept : (0x03 : Byte) = 0xF3 &&& 0x03 := by decide
  rw [hkept, ← BitVec.and_assoc, writeUnitE_keep, BitVec.and_assoc]

/-- R82: bits 2 to 7 after a unit is written do not depend on bits 0 and 1 before. -/
theorem writeUnitE_high {v w : Byte} (h : v &&& 0xFC = w &&& 0xFC) (a b : Bool) :
    writeUnitE v a b &&& 0xFC = writeUnitE w a b &&& 0xFC := by
  have hcomm (x : Byte) : x &&& 0xF3 &&& 0xFC = x &&& 0xFC &&& 0xF3 := by
    rw [BitVec.and_assoc, BitVec.and_comm 0xF3, ← BitVec.and_assoc]
  rw [writeUnitE_eq, writeUnitE_eq, BitVec.and_or_distrib_right, BitVec.and_or_distrib_right, hcomm, hcomm, h]

/-- Bits inverted under a mask, read under the same mask. -/
theorem xor_and_mask (v mask : Byte) : (v ^^^ mask) &&& mask = (v &&& mask) ^^^ mask := by
  ext i
  simp only [BitVec.getElem_and, BitVec.getElem_xor, Bool.and_xor_distrib_right, Bool.and_self]

/-- R104: bits 0 and 1 of a byte that ENC.EF writes are inverted exactly when its bits 2 and 3 change. -/
theorem writeUnitE_flipFor_low (v : Byte) (a b : Bool) :
    writeUnitE (flipFor v a b) a b &&& 0x03 =
      if writeUnitE (flipFor v a b) a b &&& 0x0C = v &&& 0x0C then v &&& 0x03 else (v &&& 0x03) ^^^ 0x03 := by
  rw [writeUnitE_unit, writeUnitE_low, flipFor_eq]
  by_cases h : v &&& 0x0C = targetPattern a b
  · rw [if_neg (not_not.mpr h), if_pos h.symm]
  · rw [if_pos h, if_neg (Ne.symm h), xor_and_mask]

/-- Settles O25: both ENCs are ready, and a carrier byte of the frame is what each of them makes of one old byte and pair. -/
theorem flipExactlyWhenTheUnitChanges : Obligations.FlipExactlyWhenTheUnitChanges := by
  unfold Obligations.FlipExactlyWhenTheUnitChanges
  intro s h
  have hEN : s.encReady .enhancedNoFlip := h
  obtain ⟨t, ht, -, hin, -⟩ := exec_encOf_ready h
  obtain ⟨u, hu, -, hinEN, -⟩ := exec_encOf_ready hEN
  obtain ⟨⟨-, -, -, hw⟩, -⟩ := h
  refine ⟨t, u, ht, hu, fun k hk => ?_⟩
  have hold : s.cbuf.read k = some (s.cbuf.byteAt k) := Memory.read_eq_byteAt (Nat.zero_add k ▸ hw k hk)
  exact ⟨_, _, _, hold, hin k hk, hinEN k hk, writeUnitE_high (flipFor_keep _ _ _) _ _, writeUnitE_flipFor_low _ _ _⟩

end Sys2Proof.Machine
end

section
/-!
PROOFS. A DEC depends on its carrier through the unit bits alone, which the enhanced schemes hold in bits 2 and 3 (O31).
-/

namespace Sys2Proof.Machine

/-- R81: the stream bits of a run of carrier bytes are the units of the bytes, one after another. -/
theorem readUnits_succ (sch : Scheme) (m : Memory) (a n : Nat) :
    readUnits sch m a (n + 1) =
      ((m.read a).map (readUnit sch)).bind fun u => (readUnits sch m (a + 1) n).map (u ++ ·) := by
  unfold readUnits
  rw [Memory.readBytes]
  cases m.read a with
  | none => rfl
  | some v => cases m.readBytes (a + 1) n <;> rfl

section

variable {sch : Scheme} {m m' : Memory}

/-- R81: carriers whose bytes hold the same units give the same stream bits. -/
theorem readUnits_of_units (h : ∀ a, (m.read a).map (readUnit sch) = (m'.read a).map (readUnit sch)) (a n : Nat) :
    readUnits sch m a n = readUnits sch m' a n := by
  induction n generalizing a with
  | zero => rfl
  | succ n ih => rw [readUnits_succ, readUnits_succ, h a, ih (a + 1)]

/-- R90, R98: carriers whose bytes hold the same units come to the same extraction. -/
theorem extract_of_units (h : ∀ a, (m.read a).map (readUnit sch) = (m'.read a).map (readUnit sch)) (n : Nat) :
    extract sch n m = extract sch n m' := by
  simp only [extract_eq, readUnits_of_units h]

/-- R117: DEC reads its carrier through the extractor alone, and writes no carrier byte. -/
theorem exec_decOf_withCarrier {s : State} (h : extract sch s.carrierLen m = extract sch s.carrierLen s.cbuf) :
    ∃ t, exec (decOf sch) s = .next t ∧ exec (decOf sch) { s with cbuf := m } = .next { t with cbuf := m } := by
  have hlong : State.carrierTooLong { s with cbuf := m } ↔ s.carrierTooLong := Iff.rfl
  have hext : extract sch (State.carrierLen { s with cbuf := m }) m = extract sch s.carrierLen s.cbuf := h
  rw [exec_decOf, exec_decOf]
  unfold decodeSeq
  simp only [hlong, hext]
  split_ifs
  · exact ⟨_, rfl, rfl⟩
  · cases extract sch s.carrierLen s.cbuf with
    | short => exact ⟨_, rfl, rfl⟩
    | unwritten => exact ⟨_, rfl, rfl⟩
    | tooLong hdr => exact ⟨_, rfl, rfl⟩
    | bits hdr p =>
      dsimp only
      cases parse hdr p with
      | error e => exact ⟨_, rfl, rfl⟩
      | ok out => exact ⟨_, rfl, rfl⟩

end

/-- R81, R95: the unit of an enhanced carrier byte is its bits 2 and 3. -/
theorem readUnit_unitBits (v : Byte) : readUnit .enhancedNoFlip (v &&& 0x0C) = readUnit .enhancedNoFlip v := by
  simp [readUnit]

/-- R81, R95: bytes, written or not, with the same bits 2 and 3 hold the same enhanced unit. -/
theorem map_readUnit_of_unitBits {x y : Option Byte}
    (h : (x.map fun v => v &&& 0x0C) = y.map fun v => v &&& 0x0C) :
    x.map (readUnit .enhancedNoFlip) = y.map (readUnit .enhancedNoFlip) := by
  simpa only [Option.map_map, Function.comp_def, readUnit_unitBits] using
    congrArg (Option.map (readUnit .enhancedNoFlip)) h

/-- Settles O31: either command is DEC.EN, and the two carriers hold the same enhanced units. -/
theorem onlyUnitBitsMatterToEnhancedDecode : Obligations.OnlyUnitBitsMatterToEnhancedDecode := by
  unfold Obligations.OnlyUnitBitsMatterToEnhancedDecode
  intro s m i j h hi hj
  have hEN {k : Instr} (hk : k = .decEf ∨ k = .decEn) (u : State) : exec k u = exec (decOf .enhancedNoFlip) u := by
    rcases hk with rfl | rfl
    · exact exec_decEf_eq_exec_decEn u
    · rfl
  rw [hEN hi, hEN hj]
  exact exec_decOf_withCarrier (extract_of_units (fun a => map_readUnit_of_unitBits (h a)) _)

end Sys2Proof.Machine
end

section
/-!
PROOFS. ENC and then DEC delivers the message, for every scheme (O40).
-/

namespace Sys2Proof.Machine

/-- R49, R90, R98: the carrier bytes of the header and of the payload are those of the frame. -/
theorem headerBytes_add_payloadBytes (sch : Scheme) (l : Nat) :
    headerBytes sch + payloadBytes sch (8 * l) = (32 + 8 * l) / units sch := by
  cases sch <;> simp only [headerBytes, payloadBytes, units] <;> omega

/-- R90, R98, R114: a carrier that fits a frame fits its header, and its payload is within the header guard. -/
theorem header_fits_of_frame_fits {sch : Scheme} {n l : Nat} (h : 32 + 8 * l ≤ n * units sch) :
    headerBytes sch ≤ n ∧ 8 * l ≤ headerLimit sch n := by
  cases sch <;> simp only [headerBytes, headerLimit, units] at h ⊢ <;> omega

/-- R117, R120: a DEC of a carrier that holds the embedded frame of a message delivers the message. -/
theorem exec_decOf_embedded {s : State} {sch : Scheme} {msg : List Byte} {m : Memory} (hl : msg.length ≤ 2 ^ 29 - 1)
    (hn : s.carrierLen ≤ s.params.nMax) (hfit : 32 + 8 * msg.length ≤ s.carrierLen * units sch)
    (hin : ∀ k < (32 + 8 * msg.length) / units sch,
      s.cbuf.read k = some (embeddedByte sch msg k (m.byteAt k))) :
    ∃ u, exec (decOf sch) s = .next u ∧ u.status = ⟨false, true, 0⟩ ∧ u.fault = s.fault ∧
      (∀ k < msg.length, u.obuf.read k = msg[k]?) ∧ u.rlen.toNat = msg.length ∧ u.hdr.toNat = 8 * msg.length := by
  have hhdr : streamHeader sch s.cbuf = 8 * msg.length := streamHeader_of_embedded hl hin
  have hdiv : 8 * msg.length / 8 = msg.length := Nat.mul_div_cancel_left _ (by decide)
  have hbytes := headerBytes_add_payloadBytes sch msg.length
  have hwritten : ∀ k < (32 + 8 * msg.length) / units sch, (s.cbuf.read k).isSome = true := fun k hk => by
    rw [hin k hk, Option.isSome_some]
  obtain ⟨hheader, hlimit⟩ := header_fits_of_frame_fits hfit
  have hready : s.payloadReady sch := by
    refine ⟨⟨hn, hheader, fun k hk => hwritten _ (by omega)⟩, hhdr ▸ hlimit, fun k hk => hwritten _ ?_⟩
    rw [hhdr] at hk
    omega
  obtain ⟨u, hu, hframe, huhdr, hurlen, hubytes, -⟩ := exec_decOf_ready hready (by omega)
  rw [hhdr] at huhdr
  rw [hhdr, hdiv] at hurlen hubytes
  refine ⟨u, hu, by rw [hframe], by rw [hframe], fun k hk => ?_, hurlen, huhdr⟩
  rw [hubytes k hk, streamByte_of_embedded hin hk, List.getD_eq_getElem?_getD, List.getElem?_eq_getElem hk,
    Option.getD_some]

/-- Settles O40: the carrier that ENC leaves holds the embedded frame of the message, which DEC delivers. -/
theorem encodeThenDecodeRoundTrip : Obligations.EncodeThenDecodeRoundTrip := by
  unfold Obligations.EncodeThenDecodeRoundTrip
  intro s sch hp h
  obtain ⟨t, ht, hframe, hin, -⟩ := exec_encOf_ready h
  obtain ⟨⟨hn, hm, hmsg, -⟩, hfit⟩ := h
  refine ⟨t, ht, by rw [hframe], by rw [hframe], fun t' hparams hclen hcbuf => ?_⟩
  have hnMax : t'.params.nMax = s.params.nMax := by rw [hparams, hframe]
  have hlen : t'.carrierLen = s.carrierLen := congrArg BitVec.toNat (hclen.trans (by rw [hframe]))
  rw [← State.length_message, ← hcbuf] at hin
  obtain ⟨u, hu, hstatus, hfault, hobuf, hrlen, hhdr⟩ :=
    exec_decOf_embedded (s := t') (by simpa using messageLen_le_of_sizesOk hp hm) (by omega)
      (by rw [State.length_message, hlen]; exact hfit) hin
  rw [State.length_message] at hobuf hrlen hhdr
  refine ⟨u, hu, hstatus, hfault, fun k hk => ?_, BitVec.toNat_inj.mp hrlen, hhdr⟩
  have hwritten : s.mbuf.read k = some (s.mbuf.byteAt k) := Memory.read_eq_byteAt (Nat.zero_add k ▸ hmsg k hk)
  rw [hobuf k hk, State.getElem?_message hk, hwritten]

end Sys2Proof.Machine
end

section
/-!
PROOFS. The engine step: it runs the latched word (O14, O15), and completes or faults (O16), writing no buffer when it
fails (O35).
-/

namespace Sys2Proof.Machine

/-- R111: a latched word that decodes is run as its command. -/
theorem runLatched_of_decode {s : State} {i : Instr} (h : decode s.cmdl = .ok i) : runLatched s = exec i s := by
  rcases runLatched_cases s with ⟨j, hj, hx⟩ | ⟨⟨r, hr⟩, -⟩
  · obtain rfl : i = j := Except.ok.inj (h.symm.trans hj)
    exact hx
  · exact absurd (h.symm.trans hr) (by simp)

/-- R112: a latched word that decodes to no command ends illegal. -/
theorem runLatched_of_reserved {s : State} (h : ∀ i, decode s.cmdl ≠ .ok i) :
    runLatched s = .next (s.complete .illegalCommand) := by
  rcases runLatched_cases s with ⟨i, hi, -⟩ | ⟨-, hx⟩
  · exact absurd hi (h i)
  · exact hx

/-- Settles O14: the latched word, in the second clause a command's own encoding, decodes to the command. -/
theorem stepRunsTheLatchedCommand : Obligations.StepRunsTheLatchedCommand := by
  unfold Obligations.StepRunsTheLatchedCommand
  refine fun s i => ⟨fun ⟨hf, hn⟩ hb hi => (step_engine hf hn hb).trans (runLatched_of_decode hi), ?_⟩
  have hword : BitVec.ofNat 32 ((encode i).toNat % 2 ^ 32) = encode i := by
    rw [Nat.mod_eq_of_lt (encode i).isLt, BitVec.ofNat_toNat, BitVec.setWidth_eq]
  have hdecode : decode (encode i) = .ok i := (decodeGivesInstrIffWordIsItsEncoding _ i).mpr rfl
  rw [step_engine rfl rfl rfl, State.withFetchWord, hword]
  exact runLatched_of_decode hdecode

/-- Settles O15: the engine step ends a reserved word with the code of ILLEGAL_COMMAND. -/
theorem reservedWordEndsIllegalCommand : Obligations.ReservedWordEndsIllegalCommand := by
  unfold Obligations.ReservedWordEndsIllegalCommand
  rintro s ⟨hf, hn⟩ hb h
  exact (step_engine hf hn hb).trans (runLatched_of_reserved (s := s.popTurn) h)

/-- R110: running the latched word completes with some code or sets FAULT to UNINIT_READ and writes nothing else. -/
theorem runLatched_completes_or_faults (s : State) :
    (∃ e s', runLatched s = .next (State.complete s' e) ∧ s'.fault = s.fault) ∨
    runLatched s = .next (s.setFault .uninitRead) := by
  rcases runLatched_cases s with ⟨i, -, hx⟩ | ⟨-, hx⟩ <;> rw [hx]
  · exact exec_completes_or_faults i s
  · exact .inl ⟨.illegalCommand, s, rfl, rfl⟩

/-- Settles O16: an enabled engine runs the latched word, one that is not takes its turn. -/
theorem engineStepCompletesOrFaults : Obligations.EngineStepCompletesOrFaults := by
  unfold Obligations.EngineStepCompletesOrFaults
  rintro s ⟨hf, hn⟩
  refine ⟨fun hb => ?_, step_engine_idle hf hn⟩
  rw [step_engine hf hn hb]
  rcases runLatched_completes_or_faults s.popTurn with ⟨e, s', hx, hs'⟩ | hx
  · exact ⟨_, hx, .inl ⟨hs'.trans hf, rfl, rfl, Err.code_le e⟩⟩
  · exact ⟨_, hx, .inr rfl⟩

/-- R115: what the engine leaves when it ends with an error or a model fault is the state before but for STATUS, HDR and
FAULT. -/
theorem EngineEffect.eq_of_failed {s t : State} (h : EngineEffect s t) (hf : s.fault = none)
    (hfail : t.fault ≠ none ∨ t.status.err ≠ 0) :
    t = { s with status := t.status, hdr := t.hdr, fault := t.fault } := by
  cases h with
  | faulted => rfl
  | ended e => rfl
  | headerRead sch e _ => rfl
  | encoded sch m _ _ _ => simp [hf] at hfail
  | delivered sch out _ _ _ => simp [hf] at hfail
  | measured sch _ _ => simp [hf] at hfail

/-- Settles O35: a step of an enabled engine runs the latched word, which failed. -/
theorem failedCommandWritesNoBuffer : Obligations.FailedCommandWritesNoBuffer := by
  unfold Obligations.FailedCommandWritesNoBuffer
  rintro s t ⟨hf, hn⟩ hb h hfail
  rw [step_engine hf hn hb] at h
  exact (runLatched_effect h).eq_of_failed hf hfail

end Sys2Proof.Machine
end

section
/-!
PROOFS. NOP (O18), and the first checks of the other commands, the lengths (O20) and the capacity (O21).
-/

namespace Sys2Proof.Machine

/-- R64, R67: NOP is the one command with OP = 0. -/
theorem encode_mod_eq_zero_iff (i : Instr) : (encode i).toNat % 16 = 0 ↔ i = .nop := by
  cases i <;> decide

/-- Settles O18: a word with OP = 0 that decodes is the encoding of NOP, the word 0. -/
theorem nopCompletes : Obligations.NopCompletes := by
  unfold Obligations.NopCompletes
  have hnop : encode .nop = 0x00000000 := by decide
  refine ⟨exec_nop, hnop, fun w hop hne i hi => hne ?_⟩
  obtain rfl := (decodeGivesInstrIffWordIsItsEncoding w i).mp hi
  obtain rfl := (encode_mod_eq_zero_iff i).mp hop
  exact hnop

/-- R113: ENC with N > N_MAX or L > M_MAX ends with RANGE and writes nothing but STATUS. -/
theorem exec_encOf_tooLong {s : State} (h : s.carrierTooLong ∨ s.messageTooLong) (sch : Scheme) :
    exec (encOf sch) s = .next (s.complete .range) := by
  obtain ⟨-, hx⟩ := (encodeSeq_cases sch s).resolve_right fun ⟨hn, hm, _⟩ => h.elim hn hm
  rw [exec_encOf, hx, Result.finish_ends]

/-- R113: DEC with N > N_MAX ends with RANGE and writes nothing but STATUS. -/
theorem exec_decOf_tooLong {s : State} (h : s.carrierTooLong) (sch : Scheme) :
    exec (decOf sch) s = .next (s.complete .range) := by
  obtain ⟨-, hx⟩ := (decodeSeq_cases sch s).resolve_right fun hfits => hfits.1 h
  rw [exec_decOf, hx, Result.finish_ends]

/-- Settles O20: each kind of command checks the lengths first. -/
theorem lengthBeyondBufferEndsRange : Obligations.LengthBeyondBufferEndsRange := by
  unfold Obligations.LengthBeyondBufferEndsRange
  exact fun s sch =>
    ⟨fun hn => ⟨exec_encOf_tooLong (.inl hn) sch, exec_decOf_tooLong hn sch, exec_capOf_tooLong hn sch⟩,
      fun hm => exec_encOf_tooLong (.inr hm) sch⟩

/-- Settles O21: of the ends of ENC, this is the only one for lengths in range and a frame beyond the carrier. -/
theorem frameBeyondCarrierEndsCapacity : Obligations.FrameBeyondCarrierEndsCapacity := by
  unfold Obligations.FrameBeyondCarrierEndsCapacity
  intro s sch hn hm hbeyond
  rcases encodeSeq_cases sch s with ⟨hlong, -⟩ | ⟨-, -, ⟨-, hx⟩ | ⟨hfit, -⟩⟩
  · exact absurd hlong (not_or_intro hn.not_gt hm.not_gt)
  · rw [exec_encOf, hx, Result.finish_ends]
    rfl
  · exact absurd hbeyond hfit.not_gt

end Sys2Proof.Machine
end

section
/-!
PROOFS. How a DEC fails (O29).
-/

namespace Sys2Proof.Machine

/-- R123: DEC on a carrier shorter than its header ends with INVALID_HEADER and reads nothing. -/
theorem decodeSeq_short {sch : Scheme} {s : State} (hn : s.carrierLen ≤ s.params.nMax)
    (h : s.carrierLen < headerBytes sch) : decodeSeq sch s = .ends .invalidHeader s := by
  rcases decodeSeq_cases sch s with ⟨hlong, -⟩ | ⟨-, ⟨-, hx⟩ | ⟨hfit, -⟩ | ⟨⟨-, hfit, -⟩, -⟩⟩
  · omega
  · exact hx
  · omega
  · omega

/-- R123: DEC with a header beyond what the carrier can hold ends with INVALID_HEADER after HDR is written. -/
theorem decodeSeq_headerBeyond {sch : Scheme} {s : State} (hr : s.headerReady sch)
    (h : headerLimit sch s.carrierLen < streamHeader sch s.cbuf) :
    decodeSeq sch s = .ends .invalidHeader (s.withHdr (streamHeader sch s.cbuf)) := by
  obtain ⟨hn, hfit, hhead⟩ := hr
  rcases decodeSeq_cases sch s with
    ⟨hlong, -⟩ | ⟨-, ⟨hshort, -⟩ | ⟨-, hnh, -⟩ | ⟨-, ⟨-, hx⟩ | ⟨hlimit, -⟩ | ⟨⟨-, hlimit, -⟩, -⟩⟩⟩
  · omega
  · omega
  · exact absurd hhead hnh
  · exact hx
  · omega
  · omega

/-- R124, R125: DEC with a header that is no multiple of 8 ends after HDR is written, with TRUNCATED when the payload bits
fall short of the header and with NOT_BYTE_ALIGNED otherwise. -/
theorem decodeSeq_misaligned {sch : Scheme} {s : State} (hr : s.payloadReady sch)
    (h : streamHeader sch s.cbuf % 8 ≠ 0) :
    decodeSeq sch s =
      .ends (if payloadBytes sch (streamHeader sch s.cbuf) * units sch < streamHeader sch s.cbuf
        then .truncated else .notByteAligned) (s.withHdr (streamHeader sch s.cbuf)) := by
  obtain ⟨⟨hn, hfit, hhead⟩, hlimit, hpay⟩ := hr
  rcases decodeSeq_cases sch s with
    ⟨hlong, -⟩ | ⟨-, ⟨hshort, -⟩ | ⟨-, hnh, -⟩ | ⟨-, ⟨hbeyond, -⟩ | ⟨-, hnp, -⟩ |
      ⟨-, ⟨htrunc, hx⟩ | ⟨hwhole, -, hx⟩ | ⟨-, halign, -⟩⟩⟩⟩
  · omega
  · omega
  · exact absurd hhead hnh
  · omega
  · exact absurd hpay hnp
  · rw [hx, if_pos htrunc]
  · rw [hx, if_neg hwhole.not_gt]
  · exact absurd halign h

/-- R90, R99: the payload bits fall short of the header exactly for an odd header of an enhanced scheme. -/
theorem payloadBits_lt_header_iff (sch : Scheme) (hdr : Nat) :
    payloadBytes sch hdr * units sch < hdr ↔ sch ≠ .basic ∧ hdr % 2 = 1 := by
  cases sch <;>
    simp only [payloadBytes, units, ne_eq, reduceCtorEq, not_true_eq_false, not_false_eq_true, true_and, false_and,
      iff_false] <;>
    omega

/-- Settles O29, by the check of DEC that fails; an odd header of an enhanced scheme is the one whose payload falls short. -/
theorem decodeFailures : Obligations.DecodeFailures := by
  unfold Obligations.DecodeFailures
  rintro s sch _ rfl hn
  refine ⟨fun hshort => ?_, fun hr hbeyond => ?_, fun hr hsch hodd => ?_, fun hr heven halign => ?_⟩
  · rw [exec_decOf, decodeSeq_short hn hshort]
    rfl
  · rw [exec_decOf, decodeSeq_headerBeyond hr hbeyond]
    rfl
  · rw [exec_decOf, decodeSeq_misaligned hr (by omega), if_pos ((payloadBits_lt_header_iff sch _).mpr ⟨hsch, hodd⟩)]
    rfl
  · have hwhole : ¬ (sch ≠ .basic ∧ streamHeader sch s.cbuf % 2 = 1) := fun ⟨hsch, hodd⟩ =>
      heven.elim hsch fun heven => by omega
    rw [exec_decOf, decodeSeq_misaligned hr halign, if_neg (mt (payloadBits_lt_header_iff sch _).mp hwhole)]
    rfl

end Sys2Proof.Machine
end

section
/-!
PROOFS. A command that completes reports its first error (O34).
-/

namespace Sys2Proof.Machine

/-- R110: an engine step that leaves FAULT = NONE completed with the code of the command's end. -/
theorem Result.ends_of_finish {x : Result} {s t : State} (h : x.finish s = .next t) (hf : t.fault = none) :
    ∃ e s', x = .ends e s' ∧ t.status = ⟨false, true, e.code⟩ := by
  cases x with
  | ends e s' =>
    obtain rfl := Host.Outcome.next.inj h
    exact ⟨e, s', rfl, rfl⟩
  | faults r =>
    obtain rfl := Host.Outcome.next.inj h
    simp at hf

/-- R128, items 2 and 3: an ENC that ends, ends with the code of its first error. -/
theorem encodeSeq_code {sch : Scheme} {s s' : State} {e : Err} (h : encodeSeq sch s = .ends e s') :
    e.code = encFirstError sch s := by
  unfold encFirstError
  rcases encodeSeq_cases sch s with
    ⟨hlong, hx⟩ | ⟨hn, hm, ⟨hshort, hx⟩ | ⟨hfit, ⟨-, hx⟩ | ⟨-, m, hx, -⟩⟩⟩ <;>
    cases hx.symm.trans h
  · rcases hlong with hn | hm
    · rw [if_pos hn]
      rfl
    · rw [if_pos hm, ite_self]
      rfl
  · rw [if_neg hn, if_neg hm, if_pos hshort]
    rfl
  · rw [if_neg hn, if_neg hm, if_neg hfit.not_gt]
    rfl

/-- R128, items 2 and 4: a DEC that ends, ends with the code of its first error. -/
theorem decodeSeq_code {sch : Scheme} {s s' : State} {e : Err} (h : decodeSeq sch s = .ends e s') :
    e.code = decFirstError sch s := by
  unfold decFirstError
  rcases decodeSeq_cases sch s with
    ⟨hlong, hx⟩ | ⟨hn, ⟨hshort, hx⟩ | ⟨-, -, hx⟩ | ⟨⟨-, hfit, -⟩, ⟨hbeyond, hx⟩ | ⟨-, -, hx⟩ |
      ⟨⟨-, hlimit, -⟩, ⟨htrunc, hx⟩ | ⟨hwhole, halign, hx⟩ | ⟨hwhole, halign, out, hx, -⟩⟩⟩⟩ <;>
    cases hx.symm.trans h
  · rw [if_pos hlong]
    rfl
  · rw [if_neg hn, if_pos hshort]
    rfl
  · rw [if_neg hn, if_neg hfit.not_gt, if_pos hbeyond]
    rfl
  · rw [if_neg hn, if_neg hfit.not_gt, if_neg hlimit.not_gt, if_pos htrunc]
    rfl
  · rw [if_neg hn, if_neg hfit.not_gt, if_neg hlimit.not_gt, if_neg hwhole.not_gt, if_pos halign]
    rfl
  · rw [if_neg hn, if_neg hfit.not_gt, if_neg hlimit.not_gt, if_neg hwhole.not_gt, if_neg (not_not.mpr halign)]
    rfl

/-- R128, item 2: a CAP ends with RANGE or with OK. -/
theorem capSeq_code {sch : Scheme} {s s' : State} {e : Err} (h : capSeq sch s = .ends e s') :
    e.code = if s.params.nMax < s.carrierLen then 6 else 0 := by
  rcases capSeq_cases sch s with ⟨hlong, hx⟩ | ⟨hn, hx⟩ <;> cases hx.symm.trans h
  · rw [if_pos hlong]
    rfl
  · rw [if_neg hn]
    rfl

section

variable {s : State}

/-- R128, item 1: the first error of a reserved word is ILLEGAL_COMMAND. -/
theorem State.firstError_of_reserved {r : IllegalWord} (h : decode s.cmdl = .error r) : s.firstError = 5 := by
  simp only [State.firstError, h]

/-- R119, R128: NOP has no error. -/
theorem State.firstError_of_nop (h : decode s.cmdl = .ok .nop) : s.firstError = 0 := by
  simp only [State.firstError, h]

/-- R128: the first error of a latched ENC. -/
theorem State.firstError_of_encOf {sch : Scheme} (h : decode s.cmdl = .ok (encOf sch)) :
    s.firstError = encFirstError sch s := by
  cases sch <;> simp only [State.firstError, h, encOf]

/-- R128: the first error of a latched DEC. -/
theorem State.firstError_of_decOf {sch : Scheme} (h : decode s.cmdl = .ok (decOf sch)) :
    s.firstError = decFirstError sch s := by
  cases sch <;> simp only [State.firstError, h, decOf]

/-- R128: the first error of a latched CAP. -/
theorem State.firstError_of_capOf {sch : Scheme} (h : decode s.cmdl = .ok (capOf sch)) :
    s.firstError = if s.params.nMax < s.carrierLen then 6 else 0 := by
  cases sch <;> simp only [State.firstError, h, capOf]

end

/-- R110, R128: a latched word that completes leaves the code of its first error. -/
theorem runLatched_reports_firstError {s t : State} (h : runLatched s = .next t) (hf : t.fault = none) :
    t.status = ⟨false, true, s.firstError⟩ := by
  rcases runLatched_cases s with ⟨i, hi, hx⟩ | ⟨⟨r, hr⟩, hx⟩ <;> rw [hx] at h
  · rcases Instr.kinds i with rfl | ⟨sch, rfl | rfl | rfl⟩
    · obtain rfl := Host.Outcome.next.inj h
      rw [State.firstError_of_nop hi]
      rfl
    · obtain ⟨e, s', he, hstatus⟩ := Result.ends_of_finish (exec_encOf sch s ▸ h) hf
      rw [hstatus, encodeSeq_code he, State.firstError_of_encOf hi]
    · obtain ⟨e, s', he, hstatus⟩ := Result.ends_of_finish (exec_decOf sch s ▸ h) hf
      rw [hstatus, decodeSeq_code he, State.firstError_of_decOf hi]
    · obtain ⟨e, s', he, hstatus⟩ := Result.ends_of_finish (exec_capOf sch s ▸ h) hf
      rw [hstatus, capSeq_code he, State.firstError_of_capOf hi]
  · obtain rfl := Host.Outcome.next.inj h
    rw [State.firstError_of_reserved hr]
    rfl

/-- Taking the turn changes nothing that the first error depends on. -/
@[simp] theorem State.firstError_popTurn (s : State) : s.popTurn.firstError = s.firstError := rfl

/-- Settles O34: the step of an enabled engine runs the latched word. -/
theorem firstErrorIsReported : Obligations.FirstErrorIsReported := by
  unfold Obligations.FirstErrorIsReported
  rintro s t ⟨hf, hn⟩ hb h ht
  rw [step_engine hf hn hb] at h
  rw [runLatched_reports_firstError h ht, State.firstError_popTurn]

end Sys2Proof.Machine
end

section
/-!
PROOFS. The idle machine (O45).
-/

namespace Sys2Proof.Machine

/-- R138, R143: a host with no operation left changes nothing. -/
theorem hostTurn_of_prog_nil {s : State} (hp : s.prog = []) : hostTurn s = s := by
  rw [hostTurn, hp]

/-- Settles O45: an engine that is not enabled only takes its turn, and so does a host with no operation left. -/
theorem idleMachineKeepsItsState : Obligations.IdleMachineKeepsItsState := by
  unfold Obligations.IdleMachineKeepsItsState
  intro s hf hb hp hreset
  cases hn : s.nextTurn with
  | engine => exact step_engine_idle hf hn hb
  | host =>
    rw [step_host hf hn, hostTurn_of_prog_nil (s := s.popTurn) hp]
    rfl
  | reset => exact absurd hn hreset

end Sys2Proof.Machine
end

section
/-!
PROOFS. Reset: the state it leaves (O5), the turn that asserts it (O6), and the invariant it establishes (O48).
-/

namespace Sys2Proof.Machine

/-- R26, R140: STATUS reads 0 when its three fields are 0. -/
theorem Status.word_cleared : Status.word ⟨false, false, 0⟩ = 0 := by decide

/-- R43, R140: every register of the reset state reads 0. -/
theorem State.regValue_resetWith (p : Params) (reg : Reg) : (State.resetWith p).regValue reg = 0 := by
  cases reg with
  | status => exact Status.word_cleared
  | cmd | clen | mlen | hdr | rlen | cap => rfl

/-- R140, R141: every buffer of the reset state is empty. -/
theorem State.buf_resetWith (p : Params) (b : Buf) : (State.resetWith p).buf b = [] := by
  cases b <;> rfl

/-- Settles O5, by the register and by the buffer. -/
theorem resetStateHoldsSpecValues : Obligations.ResetStateHoldsSpecValues := by
  unfold Obligations.ResetStateHoldsSpecValues
  refine fun p => ⟨State.regValue_resetWith p, rfl, rfl, rfl, fun b a => ?_⟩
  rw [State.buf_resetWith, Memory.read_nil]

/-- Settles O6: the state that a turn of reset leaves, field by field. -/
theorem resetTurnDiscardsTheCommand : Obligations.ResetTurnDiscardsTheCommand := by
  unfold Obligations.ResetTurnDiscardsTheCommand
  exact fun s hf hn => step_reset hf hn

/-- R7, R8, R9, R41, R42: the parameters of log 1 are legal. -/
theorem Config.params_wf : Config.params.wf := by decide

/-- Settles O48, by the invariant at reset for legal parameters. -/
theorem resetMeetsTheInvariant : Obligations.ResetMeetsTheInvariant := by
  unfold Obligations.ResetMeetsTheInvariant
  exact ⟨inv_resetWith Config.params_wf, fun p hp => inv_resetWith hp⟩

end Sys2Proof.Machine
end

section
/-!
PROOFS. A command whose operands the host has written completes (O33).
-/

namespace Sys2Proof.Machine

/-- R144: a command's sequence in `s` ends, with some error code, and raises no model fault. -/
def Result.Completes (x : Result) (s : State) : Prop :=
  ∃ e s', x = .ends e s' ∧ s'.fault = s.fault

/-- R110: a sequence that ends leaves FAULT as it was, BUSY = 0 and DONE = 1. -/
theorem Result.Completes.finish {x : Result} {s : State} (h : x.Completes s) :
    ∃ t, x.finish s = .next t ∧ t.fault = s.fault ∧ t.status.busy = false ∧ t.status.done = true := by
  obtain ⟨e, s', rfl, hf⟩ := h
  exact ⟨s'.complete e, rfl, hf, rfl, rfl⟩

/-- R144: ENC meets no byte never written. -/
theorem encodeSeq_completes {sch : Scheme} {s : State} (h : s.encOperands sch) : (encodeSeq sch s).Completes s := by
  obtain ⟨-, -, hmsg, hcarrier⟩ := h
  rcases encodeSeq_cases sch s with ⟨-, hx⟩ | ⟨-, -, ⟨-, hx⟩ | ⟨-, ⟨hw, -⟩ | ⟨-, m, hx, -⟩⟩⟩
  · exact ⟨_, _, hx, rfl⟩
  · exact ⟨_, _, hx, rfl⟩
  · exact absurd hw (not_or_intro (not_not_intro hmsg) (not_not_intro hcarrier))
  · exact ⟨_, _, hx, rfl⟩

/-- R144: DEC meets no byte never written, neither in the header nor in a payload that passes the header guard. -/
theorem decodeSeq_completes {sch : Scheme} {s : State} (h : s.decOperands sch) : (decodeSeq sch s).Completes s := by
  obtain ⟨-, hheader, hpayload⟩ := h
  rcases decodeSeq_cases sch s with
    ⟨-, hx⟩ | ⟨-, ⟨-, hx⟩ | ⟨-, hw, -⟩ | ⟨-, ⟨-, hx⟩ | ⟨hlimit, hw, -⟩ |
      ⟨-, ⟨-, hx⟩ | ⟨-, -, hx⟩ | ⟨-, -, out, hx, -⟩⟩⟩⟩
  · exact ⟨_, _, hx, rfl⟩
  · exact ⟨_, _, hx, rfl⟩
  · exact absurd hheader hw
  · exact ⟨_, _, hx, rfl⟩
  · exact absurd (hpayload hlimit) hw
  · exact ⟨_, _, hx, rfl⟩
  · exact ⟨_, _, hx, rfl⟩
  · exact ⟨_, _, hx, rfl⟩

/-- R111: CAP reads no buffer. -/
theorem capSeq_completes (sch : Scheme) (s : State) : (capSeq sch s).Completes s := by
  rcases capSeq_cases sch s with ⟨-, hx⟩ | ⟨-, hx⟩
  · exact ⟨_, _, hx, rfl⟩
  · exact ⟨_, _, hx, rfl⟩

/-- R144: what the host must have written before an ENC. -/
theorem State.bootReady_encOf (sch : Scheme) (s : State) : s.bootReady (encOf sch) = s.encOperands sch := by
  cases sch <;> rfl

/-- R144: what the host must have written before a DEC. -/
theorem State.bootReady_decOf (sch : Scheme) (s : State) : s.bootReady (decOf sch) = s.decOperands sch := by
  cases sch <;> rfl

/-- Settles O33, by the kind of the command. -/
theorem bootedCommandCompletes : Obligations.BootedCommandCompletes := by
  unfold Obligations.BootedCommandCompletes
  intro s i h
  rcases Instr.kinds i with rfl | ⟨sch, rfl | rfl | rfl⟩
  · exact ⟨s.complete .ok, exec_nop s, rfl, rfl, rfl⟩
  · rw [State.bootReady_encOf] at h
    rw [exec_encOf]
    exact (encodeSeq_completes h).finish
  · rw [State.bootReady_decOf] at h
    rw [exec_decOf]
    exact (decodeSeq_completes h).finish
  · rw [exec_capOf]
    exact (capSeq_completes sch s).finish

end Sys2Proof.Machine
end

section
/-!
PROOFS. While BUSY = 1: the host may read STATUS and nothing else (O11), and under a host that does no more the engine
takes its step within the turns planned (O46, O51).
-/

namespace Sys2Proof.Machine

/-- Settles O11: a read of STATUS returns its word, and every other operation but `wait` is a hazard. -/
theorem busyHostMayOnlyReadStatus : Obligations.BusyHostMayOnlyReadStatus := by
  unfold Obligations.BusyHostMayOnlyReadStatus
  refine fun s op rest h hb => ⟨?_, fun hread hwait => step_hazard h hb hwait (hread .w32)⟩
  rintro rfl
  exact step_regRead (reg := .status) h (.inr rfl)

/-- R150: a command is accepted and not yet run, the host only reads STATUS and no reset is asserted. -/
structure State.Polling (s : State) : Prop where
  noFault : s.fault = none
  busy : s.status.busy = true
  noReset : ∀ x ∈ s.turns, x ≠ .reset
  polls : ∀ op ∈ s.prog, op = .wait ∨ op = .regRead 0x04 .w32

/-- R150: a state in which the command of a polling host is over, completed or stopped at a byte never written. -/
def State.Settled (s : State) : Prop := s.commandEnded ∨ s.fault = some .uninitRead

/-- A later state with the same STATUS and FAULT, and with no new turn or operation, is one of polling too. -/
theorem State.Polling.mono {s t : State} (h : s.Polling) (hf : t.fault = s.fault) (hs : t.status = s.status)
    (ht : t.turns ⊆ s.turns) (hp : t.prog ⊆ s.prog) : t.Polling where
  noFault := hf.trans h.noFault
  busy := hs ▸ h.busy
  noReset x hx := h.noReset x (ht hx)
  polls op hop := h.polls op (hp hop)

/-- R146: a turn of a polling host leaves the command latched and only takes the turn. -/
theorem State.Polling.step_of_host {s : State} (h : s.Polling) (hn : s.nextTurn = .host) :
    ∃ t, step s = .next t ∧ t.Polling ∧ t.turns = s.turns.tail := by
  have hturns : s.turns.tail ⊆ s.turns := List.tail_subset _
  cases hp : s.prog with
  | nil =>
    have hidle : hostTurn s.popTurn = s.popTurn := hostTurn_of_prog_nil hp
    exact ⟨s.popTurn, hidle ▸ step_host h.noFault hn, h.mono rfl rfl hturns (List.Subset.refl _), rfl⟩
  | cons op rest =>
    have hm : s.hostMoves op rest := ⟨h.noFault, hn, hp⟩
    have hrest : rest ⊆ s.prog := hp ▸ List.subset_cons_self _ _
    rcases h.polls op (by simp [hp]) with rfl | rfl
    · exact ⟨_, (waitReadsStatusUntilIdle s rest hm).1 h.busy, h.mono rfl rfl hturns (List.Subset.refl _), rfl⟩
    · exact ⟨_, step_regRead (reg := .status) hm (.inr rfl), h.mono rfl rfl hturns hrest, rfl⟩

/-- R110: a turn of the enabled engine settles the command. -/
theorem State.Polling.step_of_engine {s : State} (h : s.Polling) (hn : s.nextTurn = .engine) :
    ∃ t, step s = .next t ∧ t.Settled := by
  rw [step_engine h.noFault hn h.busy]
  rcases runLatched_completes_or_faults s.popTurn with ⟨e, s', hx, hs'⟩ | hx
  · exact ⟨_, hx, .inl ⟨rfl, rfl, hs'.trans h.noFault⟩⟩
  · exact ⟨_, hx, .inr rfl⟩

/-- R150, log 4: within `n` steps the command is settled, and every state before that has BUSY = 1. -/
def State.SettlesWithin (s : State) (n : Nat) : Prop :=
  ∃ k ≤ n, ∃ t, Sys2Proof.core.run k s = .next t ∧ t.Settled ∧
    ∀ j u, j < k → Sys2Proof.core.run j s = .next u → u.status.busy = true

/-- A command that one step settles. -/
theorem State.SettlesWithin.of_settled {s t : State} (hb : s.status.busy = true) (hstep : step s = .next t)
    (ht : t.Settled) (n : Nat) : s.SettlesWithin (n + 1) := by
  refine ⟨1, by omega, t, run_one hstep, ht, fun j u hj hu => ?_⟩
  obtain rfl : j = 0 := by omega
  exact eq_of_run_zero hu ▸ hb

/-- A command that is settled one step later than from the next state. -/
theorem State.SettlesWithin.succ {s s₁ : State} {n : Nat} (hb : s.status.busy = true) (hstep : step s = .next s₁)
    (h₁ : s₁.SettlesWithin n) : s.SettlesWithin (n + 1) := by
  obtain ⟨k, hk, t, hrun, ht, hbusy⟩ := h₁
  refine ⟨k + 1, by omega, t, (run_succ hstep k).trans hrun, ht, fun j u hj hu => ?_⟩
  cases j with
  | zero => exact eq_of_run_zero hu ▸ hb
  | succ j => exact hbusy j u (by omega) ((run_succ hstep j).symm.trans hu)

/-- R150, log 4: the enabled engine takes its step after at most the turns planned. -/
theorem State.Polling.settlesWithin {s : State} (h : s.Polling) : s.SettlesWithin (s.turns.length + 1) := by
  induction hts : s.turns generalizing s with
  | nil =>
    obtain ⟨t, hstep, ht⟩ := h.step_of_engine (by simp [State.nextTurn, hts, h.busy])
    exact .of_settled h.busy hstep ht _
  | cons x xs ih =>
    have hx : s.nextTurn = x := by simp [State.nextTurn, hts]
    cases x with
    | engine =>
      obtain ⟨t, hstep, ht⟩ := h.step_of_engine hx
      exact .of_settled h.busy hstep ht _
    | host =>
      obtain ⟨s₁, hstep, h₁, hts₁⟩ := h.step_of_host hx
      exact .succ h.busy hstep (ih h₁ (by rw [hts₁, hts, List.tail_cons]))
    | reset => exact absurd rfl (h.noReset .reset (by simp [hts]))

/-- Settles O46, by induction on the turns planned. -/
theorem enabledEngineIsEventuallyTaken : Obligations.EnabledEngineIsEventuallyTaken := by
  unfold Obligations.EnabledEngineIsEventuallyTaken
  intro s hf hb hreset hpolls
  obtain ⟨k, hk, t, hrun, ht, -⟩ := State.Polling.settlesWithin ⟨hf, hb, hreset, hpolls⟩
  exact ⟨k, hk, t, hrun, ht⟩

/-- R109: the acceptance of a command before a program that only polls. -/
theorem step_accept_polling {s : State} {v : Word} {rest : List HostOp} (hb : s.status.busy = false)
    (hm : s.hostMoves (.regWrite 0x00 .w32 v) rest) (hreset : ∀ x ∈ s.turns, x ≠ .reset)
    (hpolls : ∀ op ∈ rest, op = .wait ∨ op = .regRead 0x04 .w32) :
    ∃ t, step s = .next t ∧ t.Polling ∧ t.turns = s.turns.tail := by
  obtain ⟨hf, -, -⟩ := id hm
  exact ⟨_, step_regWrite (reg := .cmd) hm hb,
    ⟨hf, rfl, fun x hx => hreset x (List.mem_of_mem_tail hx), hpolls⟩, rfl⟩

/-- Settles O51: no state between the acceptance and the settled one has BUSY = 0. -/
theorem acceptedCommandEnds : Obligations.AcceptedCommandEnds := by
  unfold Obligations.AcceptedCommandEnds
  intro s v rest hb hm hreset hpolls
  obtain ⟨s₁, hstep, h₁, hts₁⟩ := step_accept_polling hb hm hreset hpolls
  obtain ⟨k, hk, t, hrun, ht, hbusy⟩ := h₁.settlesWithin
  have hlen : s₁.turns.length ≤ s.turns.length := by simp [hts₁]
  have hrun' : Sys2Proof.core.run (k + 1) s = .next t := (run_succ hstep k).trans hrun
  refine ⟨k + 1, by omega, t, ht.imp (fun hended => ?_) fun hfault => ⟨hrun', hfault⟩⟩
  refine ⟨⟨hb, rest, hm⟩, by omega, hrun', hended, fun j u hj hjk hu ⟨hidle, _⟩ => ?_⟩
  obtain ⟨i, rfl⟩ := Nat.exists_eq_succ_of_ne_zero hj.ne'
  have hbusyu : u.status.busy = true := hbusy i u (by omega) ((run_succ hstep i).symm.trans hu)
  simp [hidle] at hbusyu

end Sys2Proof.Machine
end

section
/-!
PROOFS. The ends of a command and of a host program are unique (O49), and a program left busy has none (O50).
-/

namespace Sys2Proof.Machine

/-- A run of a given length has one end. -/
theorem run_unique {k : Nat} {s t t' : State} (h : Sys2Proof.core.run k s = .next t)
    (h' : Sys2Proof.core.run k s = .next t') : t = t' :=
  Host.Outcome.next.inj (h.symm.trans h')

/-- R151: the end of a command is no later than any other of its ends. -/
theorem CommandEnd.le {s t t' : State} {v : Word} {k k' : Nat} (h : CommandEnd s v k t)
    (h' : CommandEnd s v k' t') : k ≤ k' := by
  by_contra hlt
  obtain ⟨hbusy, hdone, -⟩ := h'.ended
  exact h.first k' t' h'.after (by omega) h'.run ⟨hbusy, hdone⟩

/-- R151: `k` steps from `s` lead to `u`, from which the next step performs the last host operation and leaves `t`. -/
structure LastOperation (s : State) (k : Nat) (u t : State) : Prop where
  run : Sys2Proof.core.run k s = .next u
  moves : ∃ op, u.hostMoves op []
  step : step u = .next t
  performed : t.prog = []

/-- R151: the end of a host program is what its last operation leaves. -/
theorem ProgramEnd.lastOperation {s t : State} {k : Nat} (h : ProgramEnd s k t) : ∃ u, LastOperation s k u t := by
  obtain ⟨u, op, hrun, hm, hstep⟩ := h.last
  exact ⟨u, hrun, ⟨op, hm⟩, hstep, h.performed⟩

/-- R151: the last host operation leaves none to perform, so no other performance of it comes before. -/
theorem LastOperation.le {s u t u' t' : State} {k k' : Nat} (h : LastOperation s k u t)
    (h' : LastOperation s k' u' t') : k ≤ k' := by
  by_contra hlt
  obtain ⟨d, rfl⟩ : ∃ d, k = k' + (d + 1) := ⟨k - k' - 1, by omega⟩
  have hrun : Sys2Proof.core.run d t' = .next u := by rw [← h.run, run_add h'.run, run_succ h'.step]
  have hnil : u.prog = [] := run_prog_nil hrun h'.performed
  obtain ⟨op, -, -, hp⟩ := h.moves
  exact List.cons_ne_nil op [] (hp.symm.trans hnil)

/-- R151: the last host operation is performed once. -/
theorem LastOperation.unique {s u t u' t' : State} {k k' : Nat} (h : LastOperation s k u t)
    (h' : LastOperation s k' u' t') : k = k' ∧ t = t' := by
  obtain rfl : k = k' := Nat.le_antisymm (h.le h') (h'.le h)
  obtain rfl : u = u' := run_unique h.run h'.run
  exact ⟨rfl, Host.Outcome.next.inj (h.step.symm.trans h'.step)⟩

/-- Settles O49: the end of a command is the first state of its kind, and that of a program is what its last operation
leaves. -/
theorem endsAreUnique : Obligations.EndsAreUnique := by
  unfold Obligations.EndsAreUnique
  constructor
  · intro s v k k' t t' h h'
    obtain rfl : k = k' := Nat.le_antisymm (h.le h') (h'.le h)
    exact ⟨rfl, run_unique h.run h'.run⟩
  · intro s k k' t t' h h'
    obtain ⟨u, hlast⟩ := h.lastOperation
    obtain ⟨u', hlast'⟩ := h'.lastOperation
    exact hlast.unique hlast'

/-- Settles O50: the end would be the state that the command's acceptance leaves, which has BUSY = 1. -/
theorem programLeftBusyHasNoEnd : Obligations.ProgramLeftBusyHasNoEnd := by
  unfold Obligations.ProgramLeftBusyHasNoEnd
  intro s u n v hrun hb hm k t h
  obtain ⟨u', hlast⟩ := h.lastOperation
  have haccept : LastOperation s n u { u.popTurn.accept v with prog := [] } :=
    ⟨hrun, ⟨_, hm⟩, step_regWrite (reg := .cmd) hm hb, rfl⟩
  obtain ⟨-, rfl⟩ := haccept.unique hlast
  exact Bool.noConfusion h.idle

end Sys2Proof.Machine
end
